-- ==== Sys2Proof/Word.lean ====
section
/-!
DEFINITION. The word types of the GF256-SSS core.
A byte is a field element or a data byte (00_scope.md R7, R8), a half word is a length, an index or a CSR value (R9), a word is
a command or a response (R70, R75).
-/

namespace Sys2Proof

/-- 8 bits: a field element, bit `i` the coefficient of `t^i` (00_scope.md R8). -/
abbrev Byte := BitVec 8

/-- 16 bits: an index, a length, a CSR or the value field of a response (00_scope.md R9). -/
abbrev Half := BitVec 16

/-- 32 bits: a command word or a response word (30_encoding.md R70, R75). -/
abbrev Word := BitVec 32

end Sys2Proof
end

