-- ==== Sys2Proof/Syntax.lean ====
section
/-!
DEFINITION. The commands of SSS-CMD version 1: one constructor per row of spec/opcode_table.json (30_encoding.md R76).
Operands stand in the order of R76 and under its names. A 4-bit specifier names register, coefficient, slot or point 0..15, and
every value of the field names one (10_state.md R21, 30_encoding.md R74), so it is a `Fin 16`; immediates are unsigned bit
vectors of the field's own width (R74).
-/

namespace Sys2Proof

/-- One command of the core (30_encoding.md R76). -/
inductive Instr where
  | nop                                          -- 0x00, R210
  | gfadd (rd ra rb : Fin 16)                    -- 0x01, R110
  | gfmul (rd ra rb : Fin 16)                    -- 0x02, R111
  | gfdiv (rd ra rb : Fin 16)                    -- 0x03, R112
  | gfinv (rd ra : Fin 16)                       -- 0x04, R114
  | gfpow (rd ra rb : Fin 16)                    -- 0x05, R115
  | ldi (rd : Fin 16) (imm : Byte)               -- 0x10, R180
  | mov (rd ra : Fin 16)                         -- 0x11, R181
  | rdr (ra : Fin 16)                            -- 0x12, R182
  | ldc (k ra : Fin 16)                          -- 0x18, R183
  | ldci (k : Fin 16) (imm : Byte)               -- 0x19, R184
  | ldcr (k : Fin 16)                            -- 0x1A, R185
  | secnew                                       -- 0x20, R186
  | secpush (ra : Fin 16)                        -- 0x21, R187
  | secpushi (imm : Byte)                        -- 0x22, R188
  | secrd (rd : Fin 16) (addr : Half)            -- 0x23, R189
  | shnew                                        -- 0x28, R190
  | shopen (ra : Fin 16)                         -- 0x29, R191
  | shopeni (imm : Byte)                         -- 0x2A, R192
  | shpush (j ra : Fin 16)                       -- 0x2B, R193
  | shpushi (j : Fin 16) (imm : Byte)            -- 0x2C, R194
  | shrd (rd j : Fin 16) (addr : Half)           -- 0x2D, R195
  | shx (rd j : Fin 16)                          -- 0x2E, R196
  | eval (rd ra : Fin 16) (k : Byte)             -- 0x30, R132
  | split (k n : Byte)                           -- 0x31, R133
  | lbasis (rn rd i : Fin 16)                    -- 0x38, R156
  | interp (rd : Fin 16) (pos : Half)            -- 0x39, R157
  | recover                                      -- 0x3A, R158
  | rdcsr (n : Byte)                             -- 0x7E, R211
  | sreset                                       -- 0x7F, R212
deriving DecidableEq, Repr

/-- The four pseudo-instructions of 30_encoding.md R81. -/
inductive Pseudo where
  | gfsub (rd ra rb : Fin 16)
  | gfsqr (rd ra : Fin 16)
  | splitb (k n imm : Byte)
  | point (j : Fin 16) (x y : Byte)
deriving DecidableEq, Repr

end Sys2Proof
end

