-- ==== Sys2Proof/WellFormed.lean ====
section
/-!
DEFINITION. Which terms of `Instr` are commands of the set: the one constraint between operands is that `LBASIS` names two
different destination registers (30_encoding.md R76, 42_lagrange_recover.md R156).
-/

namespace Sys2Proof

/-- The operands are a combination that the command set admits (R76: for `LBASIS`, `fa != fb`). -/
def Instr.wf : Instr → Bool
  | .nop | .secnew | .shnew | .recover | .sreset => true
  | .gfadd _ _ _ | .gfmul _ _ _ | .gfdiv _ _ _ | .gfpow _ _ _ => true
  | .gfinv _ _ | .mov _ _ | .ldc _ _ | .shpush _ _ | .shx _ _ => true
  | .rdr _ | .secpush _ | .shopen _ | .ldcr _ => true
  | .ldi _ _ | .ldci _ _ | .shpushi _ _ | .secpushi _ | .shopeni _ | .rdcsr _ => true
  | .secrd _ _ | .shrd _ _ _ | .interp _ _ => true
  | .eval _ _ _ | .split _ _ => true
  | .lbasis rn rd _ => rn != rd

end Sys2Proof
end

