-- ==== Sys2Proof/Decode.lean ====
section
/-!
DEFINITION. The decoder, total on 32-bit words, and after it the encoder, both from the opcode map of 30_encoding.md R76.
A word is a number and has no byte order inside the block (R70, 20_memory.md R51).
-/

namespace Sys2Proof

/-! The fields of a command word (R71). -/

/-- `op = w[31:24]`. -/
def opField (w : Word) : Byte := w.extractLsb' 24 8
/-- `fa = w[23:20]`. -/
def faField (w : Word) : Fin 16 := (w.extractLsb' 20 4).toFin
/-- `fb = w[19:16]`. -/
def fbField (w : Word) : Fin 16 := (w.extractLsb' 16 4).toFin
/-- `fc = w[15:12]`. -/
def fcField (w : Word) : Fin 16 := (w.extractLsb' 12 4).toFin
/-- `imm8 = w[15:8]`. -/
def imm8Field (w : Word) : Byte := w.extractLsb' 8 8
/-- `n8 = w[7:0]`. -/
def n8Field (w : Word) : Byte := w.extractLsb' 0 8
/-- `imm16 = w[15:0]`. -/
def imm16Field (w : Word) : Half := w.extractLsb' 0 16

/-- One row of the opcode map (R76): its opcode, its match and mask columns, and the command a matching word is. -/
structure Row where
  op : Byte
  pattern : Word
  mask : Word
  build : Word → Instr

/-- No-op and field arithmetic: opcodes `0x00..0x05`. -/
def rowsArith : List Row :=
  [ ⟨0x00, 0x00000000, 0xFFFFFFFF, fun _ => .nop⟩,
    ⟨0x01, 0x01000000, 0xFF000FFF, fun w => .gfadd (faField w) (fbField w) (fcField w)⟩,
    ⟨0x02, 0x02000000, 0xFF000FFF, fun w => .gfmul (faField w) (fbField w) (fcField w)⟩,
    ⟨0x03, 0x03000000, 0xFF000FFF, fun w => .gfdiv (faField w) (fbField w) (fcField w)⟩,
    ⟨0x04, 0x04000000, 0xFF00FFFF, fun w => .gfinv (faField w) (fbField w)⟩,
    ⟨0x05, 0x05000000, 0xFF000FFF, fun w => .gfpow (faField w) (fbField w) (fcField w)⟩ ]

/-- Register and coefficient loads: opcodes `0x10..0x1A`. -/
def rowsLoad : List Row :=
  [ ⟨0x10, 0x10000000, 0xFF0F00FF, fun w => .ldi (faField w) (imm8Field w)⟩,
    ⟨0x11, 0x11000000, 0xFF00FFFF, fun w => .mov (faField w) (fbField w)⟩,
    ⟨0x12, 0x12000000, 0xFFF0FFFF, fun w => .rdr (fbField w)⟩,
    ⟨0x18, 0x18000000, 0xFF00FFFF, fun w => .ldc (faField w) (fbField w)⟩,
    ⟨0x19, 0x19000000, 0xFF0F00FF, fun w => .ldci (faField w) (imm8Field w)⟩,
    ⟨0x1A, 0x1A000000, 0xFF0FFFFF, fun w => .ldcr (faField w)⟩ ]

/-- Secret buffer: opcodes `0x20..0x23`. -/
def rowsSecret : List Row :=
  [ ⟨0x20, 0x20000000, 0xFFFFFFFF, fun _ => .secnew⟩,
    ⟨0x21, 0x21000000, 0xFFF0FFFF, fun w => .secpush (fbField w)⟩,
    ⟨0x22, 0x22000000, 0xFFFF00FF, fun w => .secpushi (imm8Field w)⟩,
    ⟨0x23, 0x23000000, 0xFF0F0000, fun w => .secrd (faField w) (imm16Field w)⟩ ]

/-- Share slots: opcodes `0x28..0x2E`. -/
def rowsShare : List Row :=
  [ ⟨0x28, 0x28000000, 0xFFFFFFFF, fun _ => .shnew⟩,
    ⟨0x29, 0x29000000, 0xFFF0FFFF, fun w => .shopen (fbField w)⟩,
    ⟨0x2A, 0x2A000000, 0xFFFF00FF, fun w => .shopeni (imm8Field w)⟩,
    ⟨0x2B, 0x2B000000, 0xFF00FFFF, fun w => .shpush (faField w) (fbField w)⟩,
    ⟨0x2C, 0x2C000000, 0xFF0F00FF, fun w => .shpushi (faField w) (imm8Field w)⟩,
    ⟨0x2D, 0x2D000000, 0xFF000000, fun w => .shrd (faField w) (fbField w) (imm16Field w)⟩,
    ⟨0x2E, 0x2E000000, 0xFF00FFFF, fun w => .shx (faField w) (fbField w)⟩ ]

/-- Polynomial, basis, recovery and system: opcodes `0x30..0x3A`, `0x7E`, `0x7F`. -/
def rowsCompound : List Row :=
  [ ⟨0x30, 0x30000000, 0xFF0000FF, fun w => .eval (faField w) (fbField w) (imm8Field w)⟩,
    ⟨0x31, 0x31000000, 0xFFFF0000, fun w => .split (imm8Field w) (n8Field w)⟩,
    ⟨0x38, 0x38000000, 0xFF000FFF, fun w => .lbasis (faField w) (fbField w) (fcField w)⟩,
    ⟨0x39, 0x39000000, 0xFF0F0000, fun w => .interp (faField w) (imm16Field w)⟩,
    ⟨0x3A, 0x3A000000, 0xFFFFFFFF, fun _ => .recover⟩,
    ⟨0x7E, 0x7E000000, 0xFFFF00FF, fun w => .rdcsr (imm8Field w)⟩,
    ⟨0x7F, 0x7F000000, 0xFFFFFFFF, fun _ => .sreset⟩ ]

/-- The opcode map: the 30 rows of R76 in its order. -/
def opcodeTable : List Row := rowsArith ++ rowsLoad ++ rowsSecret ++ rowsShare ++ rowsCompound

/-- The row an opcode byte names, if one does. -/
def rowOf (op : Byte) : Option Row := opcodeTable.find? (fun row => row.op == op)

/-- Why a word is no command (R77): all three make it fault `IllegalCommand`. -/
inductive IllegalWord where
  /-- no row of R76 has this opcode -/
  | unassignedOpcode (op : Byte)
  /-- the opcode names a command, but a bit its format reserves is 1 (R73) -/
  | reservedBits (w : Word)
  /-- `LBASIS` with `fa = fb` (R76, R156) -/
  | equalDestinations (rn : Fin 16)
deriving DecidableEq, Repr

/-- The command a word is, or why it is none (R73, R76, R77): its opcode names a row, `(w AND mask) = match`, and the operands
are well formed. -/
def decode (w : Word) : Except IllegalWord Instr :=
  match rowOf (opField w) with
  | none => .error (.unassignedOpcode (opField w))
  | some row =>
    if w &&& row.mask = row.pattern then
      if (row.build w).wf then .ok (row.build w) else .error (.equalDestinations (faField w))
    else .error (.reservedBits w)

/-- The instruction the decoder reads from a word given as a number, bit 0 its least significant bit; bits at `nbits` and above
are 0. A command has 32 bits (R70), so a longer row is none of this set (log 9). -/
def decodeTableWord (nbits w : Nat) : Option Instr :=
  if nbits ≤ 32 then (decode (BitVec.ofNat 32 (w % 2 ^ nbits))).toOption else none

/-! The encoder (R80): the match of the row with each operand placed in its field (R71). -/

/-- A 4-bit operand placed with its least significant bit at `lo`. -/
def place4 (lo : Nat) (i : Fin 16) : Word := BitVec.ofNat 32 i.val <<< lo
/-- An 8-bit operand placed with its least significant bit at `lo`. -/
def place8 (lo : Nat) (b : Byte) : Word := b.setWidth 32 <<< lo
/-- A 16-bit operand placed at bits 15:0. -/
def place16 (h : Half) : Word := h.setWidth 32

/-- Operands in `fa`, `fb`, `fc` (format R3 of R72). -/
def encR3 (pattern : Word) (a b c : Fin 16) : Word := pattern ||| place4 20 a ||| place4 16 b ||| place4 12 c
/-- Operands in `fa`, `fb` (format R2). -/
def encR2 (pattern : Word) (a b : Fin 16) : Word := pattern ||| place4 20 a ||| place4 16 b
/-- An operand in `fa` alone. -/
def encA (pattern : Word) (a : Fin 16) : Word := pattern ||| place4 20 a
/-- An operand in `fb` alone. -/
def encB (pattern : Word) (b : Fin 16) : Word := pattern ||| place4 16 b
/-- Operands in `fa` and `imm8` (format I8 with fb = 0). -/
def encAI8 (pattern : Word) (a : Fin 16) (imm : Byte) : Word := pattern ||| place4 20 a ||| place8 8 imm
/-- An operand in `imm8` alone (format I8 with fa = fb = 0). -/
def encI8 (pattern : Word) (imm : Byte) : Word := pattern ||| place8 8 imm
/-- Operands in `fa` and `imm16` (format I16 with fb = 0). -/
def encAI16 (pattern : Word) (a : Fin 16) (imm : Half) : Word := pattern ||| place4 20 a ||| place16 imm

/-- The word of a command (R80). -/
def encode : Instr → Word
  | .nop => 0x00000000
  | .gfadd rd ra rb => encR3 0x01000000 rd ra rb
  | .gfmul rd ra rb => encR3 0x02000000 rd ra rb
  | .gfdiv rd ra rb => encR3 0x03000000 rd ra rb
  | .gfinv rd ra => encR2 0x04000000 rd ra
  | .gfpow rd ra rb => encR3 0x05000000 rd ra rb
  | .ldi rd imm => encAI8 0x10000000 rd imm
  | .mov rd ra => encR2 0x11000000 rd ra
  | .rdr ra => encB 0x12000000 ra
  | .ldc k ra => encR2 0x18000000 k ra
  | .ldci k imm => encAI8 0x19000000 k imm
  | .ldcr k => encA 0x1A000000 k
  | .secnew => 0x20000000
  | .secpush ra => encB 0x21000000 ra
  | .secpushi imm => encI8 0x22000000 imm
  | .secrd rd addr => encAI16 0x23000000 rd addr
  | .shnew => 0x28000000
  | .shopen ra => encB 0x29000000 ra
  | .shopeni imm => encI8 0x2A000000 imm
  | .shpush j ra => encR2 0x2B000000 j ra
  | .shpushi j imm => encAI8 0x2C000000 j imm
  | .shrd rd j addr => 0x2D000000 ||| place4 20 rd ||| place4 16 j ||| place16 addr
  | .shx rd j => encR2 0x2E000000 rd j
  | .eval rd ra k => 0x30000000 ||| place4 20 rd ||| place4 16 ra ||| place8 8 k
  | .split k n => 0x31000000 ||| place8 8 k ||| place8 0 n
  | .lbasis rn rd i => encR3 0x38000000 rn rd i
  | .interp rd pos => encAI16 0x39000000 rd pos
  | .recover => 0x3A000000
  | .rdcsr n => encI8 0x7E000000 n
  | .sreset => 0x7F000000

/-- The exact expansion of each pseudo-instruction (R81). -/
def Pseudo.expand : Pseudo → List Instr
  | .gfsub rd ra rb => [.gfadd rd ra rb]
  | .gfsqr rd ra => [.gfmul rd ra ra]
  | .splitb k n imm => [.secnew, .secpushi imm, .split k n]
  | .point j x y => [.shopeni x, .shpushi j y]

end Sys2Proof
end

