-- ==== Sys2Proof/Config.lean ====
section
/-!
DEFINITION. The implementation parameters of 00_scope.md R6: the fixed ones as numbers, the open one (`LMAX`) as a value that
nothing in Lean can evaluate.
-/

namespace Sys2Proof.Config

/-- `POLY`: the irreducible polynomial t^8+t^4+t^3+t+1 as a 9-bit number, bit `i` the coefficient of `t^i` (R6, R100). -/
def poly : BitVec 9 := 0x11B#9

/-- `GEN`: the generator an implementation with tables would use; not architecturally visible (R6, R113). -/
def gen : Byte := 0x03#8

/-- `MAX_SHARES`: the largest N of a split and the largest number of open share slots (R6). -/
def maxShares : Nat := 16

/-- `MAX_COEFF`: the number of coefficient registers and the largest threshold (R6). -/
def maxCoeff : Nat := 16

/-- `ID`: the value of CSR 0 (R6, R34). -/
def idCsr : Half := 0x011B#16

/-- How far this implementation's `LMAX` lies below 65535: an open value of the manual (R6, D9, P1), log 2.
It has no body, so no proof can see which value it is. -/
opaque lmaxBelow : Fin 65535

/-- `LMAX`: the capacity in bytes of the secret buffer and of each share slot, some number of 1..65535 (R6, P1), log 2. -/
def lmax : Nat := 65535 - lmaxBelow.val

end Sys2Proof.Config
end

