-- ==== Sys2Proof/Machine/State.lean ====
section
/-!
DEFINITION. The state of the core: the architectural state of 10_state.md R20 field by field, then what R26 makes a parameter or
an input of the step. Lengths are the lengths of the lists (20_memory.md R61, log 6), so a length and its bytes cannot disagree.
-/

namespace Sys2Proof.Machine

/-- An open share slot (10_state.md R30): its evaluation point `SX` and its value bytes `SVAL`; `SLEN` is `vals.length`. -/
structure Slot where
  x : Byte
  vals : List Byte
deriving DecidableEq, Repr

/-- The fault codes of 60_exceptions.md R221. A command that fails a check reports one of them and the machine goes on (R222). -/
inductive FaultCode where
  /-- code 1: the container the command needs does not exist -/
  | nullInput
  /-- code 2: the container exists and has no element -/
  | emptyInput
  /-- code 3: threshold 0 or above its bound -/
  | invalidThreshold
  /-- code 4: more than 16 shares -/
  | tooManyShares
  /-- code 5: slots of unequal length -/
  | sizeMismatch
  /-- code 6: divisor or operand of an inverse is `0x00` -/
  | divideByZero
  /-- code 7: two open slots have one evaluation point -/
  | duplicateX
  /-- code 8: `0x00` offered as an evaluation point -/
  | reservedX
  /-- code 9: no command, or a CSR number that names none -/
  | illegalCommand
  /-- code 10: a buffer or the collection is full -/
  | capacity
  /-- code 11: an index at or above a length -/
  | addrRange
deriving DecidableEq, Repr

/-- What the host does next (70_reset_and_hazards.md R273). That a run's list may hold hard resets is the model's (log 14). -/
inductive HostAct where
  /-- it presents this command word (and takes the response, R275) -/
  | command (w : Word)
  /-- it pulls `rst_n` low for at least one clock edge (R260); `lost` is how many entropy bytes the command this abandons, if
  there is one, had already taken from the port (log 4) -/
  | hardReset (lost : Nat)
deriving DecidableEq, Repr

/-- The state of the machine. -/
structure State where
  /-- `r[0..15]`, the scalar registers (R21) -/
  r : Vector Byte 16
  /-- `c[0..15]`, the coefficient registers (R23) -/
  c : Vector Byte 16
  /-- `SECV`: the secret buffer exists (R29) -/
  secv : Bool
  /-- `SEC`, the secret buffer; `SECLEN` is its length (R28) -/
  sec : List Byte
  /-- `SHV`: the share collection exists (R29) -/
  shv : Bool
  /-- the open share slots in the order they were opened; `CNT` is their number (R30) -/
  slots : List Slot
  /-- `LAST`: the fault code of the most recent command (R32) -/
  last : Byte
  /-- `FLTMASK`: the sticky record of the fault codes raised (R33) -/
  fltmask : Half
  /-- the parameter `LMAX` of this block (00_scope.md R6); no step changes it (log 2) -/
  lmax : Nat
  /-- what the host still presents, the next first (R24, R275; log 1) -/
  host : List HostAct
  /-- the bytes the entropy source still delivers, the next first (R36; log 3) -/
  rnd : List Byte
  /-- the command taken and waiting for its draws (R236, R271; log 3) -/
  held : Option Instr
  /-- the response words produced, oldest first (30_encoding.md R75; log 5) -/
  rsps : List Word
deriving DecidableEq, Repr

/-- Why the machine could stop: never. Every fault of the spec belongs to a command, is reported in its response and leaves the
core ready for the next one (60_exceptions.md R220, R222), so it is a next state; waiting for entropy is no fault (R236). No
constructor, hence raised by nobody, and safe (log 8). -/
inductive Fault where
deriving DecidableEq, Repr

/-- Why an instruction could have no meaning. -/
inductive Refusal where
  /-- raised by an arm of `exec` whose instruction has no meaning yet, by its mnemonic; no arm does; safe -/
  | notModelled (mnemonic : String)
deriving DecidableEq, Repr

/-- The outcome of a command or a step. -/
abbrev Out := Host.Outcome State Fault Refusal

/-- The state right after reset (10_state.md R38): every register, bit and length of R20 at its stated value. `lmax` is the
block's parameter (log 2); the host's and the source's lists and the response log are empty (log 1), and no command is held. -/
def State.reset : State where
  r := Vector.replicate 16 0x00#8
  c := Vector.replicate 16 0x00#8
  secv := false
  sec := []
  shv := false
  slots := []
  last := 0x00#8
  fltmask := 0x0000#16
  lmax := Config.lmax
  host := []
  rnd := []
  held := none
  rsps := []

end Sys2Proof.Machine
end

