-- ==== Sys2Proof/Machine/Flags.lean ====
section
/-!
DEFINITION. The block has no status flags (10_state.md R25); what it has in their place is the fault record `LAST` and `FLTMASK`
(R32, R33), the response word (30_encoding.md R75) and the read-only control and status registers (R34, R35).
-/

namespace Sys2Proof.Machine

/-- The number of a fault code (60_exceptions.md R221). -/
def FaultCode.code : FaultCode → Byte
  | .nullInput => 1
  | .emptyInput => 2
  | .invalidThreshold => 3
  | .tooManyShares => 4
  | .sizeMismatch => 5
  | .divideByZero => 6
  | .duplicateX => 7
  | .reservedX => 8
  | .illegalCommand => 9
  | .capacity => 10
  | .addrRange => 11

/-- The bit of `FLTMASK` that records a fault code (10_state.md R33): bit `code`. -/
def FaultCode.bit (f : FaultCode) : Half := 1#16 <<< f.code.toNat

/-- The response word: code in bits 31:24, zero in 23:16, value in 15:0 (30_encoding.md R75). -/
def responseWord (code : Byte) (value : Half) : Word := code ++ (0x00#8 ++ value)

/-- The code field of a response word (R75). -/
def responseCode (q : Word) : Byte := q.extractLsb' 24 8

/-- The value field of a response word (R75). -/
def responseValue (q : Word) : Half := q.extractLsb' 0 16

/-- The response of a success with value `v` (R75). -/
def okResponse (v : Half) : Word := responseWord 0x00#8 v

/-- The response of a fault: its code, value 0 (R75, R222). -/
def faultResponse (f : FaultCode) : Word := responseWord f.code 0x0000#16

/-- `zext_16` of a byte (00_scope.md R7). -/
def zext16 (b : Byte) : Half := b.setWidth 16

/-- A length or a count as a 16-bit number (00_scope.md R9). -/
def count16 (n : Nat) : Half := BitVec.ofNat 16 n

/-- `SECLEN` (10_state.md R28). -/
def State.seclen (s : State) : Nat := s.sec.length

/-- `CNT` (10_state.md R30). -/
def State.cnt (s : State) : Nat := s.slots.length

/-- `SLEN[j]` if slot `j` is open, else 0 (10_state.md R34). -/
def State.slen (s : State) (j : Nat) : Nat :=
  match s.slots[j]? with
  | some sl => sl.vals.length
  | none => 0

/-- `STATUS` (10_state.md R35): `LAST` in 7:0, `SECV` bit 8, `SHV` bit 9, the rest 0. -/
def State.status (s : State) : Half :=
  zext16 s.last ||| (if s.secv then 0x0100#16 else 0) ||| (if s.shv then 0x0200#16 else 0)

/-- The value of control and status register `n`, if `n` names one (10_state.md R34). -/
def State.csr (s : State) (n : Byte) : Option Half :=
  if n = 0x00 then some Config.idCsr
  else if n = 0x01 then some s.status
  else if n = 0x02 then some s.fltmask
  else if n = 0x03 then some (count16 s.cnt)
  else if n = 0x04 then some (count16 s.seclen)
  else if n = 0x05 then some (count16 s.lmax)
  else if 0x10 ≤ n.toNat ∧ n.toNat ≤ 0x1F then some (count16 (s.slen (n.toNat - 0x10)))
  else none

end Sys2Proof.Machine
end

