-- ==== Sys2Proof/Machine/Operands.lean ====
section
/-!
DEFINITION. The operand forms: scalar and coefficient registers, and the byte-wide reads and appends of the two buffer spaces
(00_scope.md R9, 20_memory.md R50, R53). There is no other addressing mode (43_data_movement.md).
-/

namespace Sys2Proof.Machine

/-- `r[i]` (00_scope.md R9). -/
def State.reg (s : State) (i : Fin 16) : Byte := s.r[i]

/-- `r[i] <- v` (R9). -/
def State.setReg (s : State) (i : Fin 16) (v : Byte) : State := { s with r := s.r.set i v }

/-- `c[k]` (R9). -/
def State.coef (s : State) (k : Fin 16) : Byte := s.c[k]

/-- `c[k] <- v` (R9). -/
def State.setCoef (s : State) (k : Fin 16) (v : Byte) : State := { s with c := s.c.set k v }

/-- The two byte-addressed spaces (R9): the secret buffer and the share slots. -/
inductive Space where
  | sec
  | sh (j : Nat)
deriving DecidableEq, Repr

/-- The bytes of a space; a slot that is not open has none (20_memory.md R61). -/
def State.bytes (s : State) : Space → List Byte
  | .sec => s.sec
  | .sh j => match s.slots[j]? with
    | some sl => sl.vals
    | none => []

/-- `MemRead(space, addr, 1)`: the byte at an index below the length; at or above it there is none (R9, R53, R61). -/
def State.memRead (s : State) (sp : Space) (addr : Nat) : Option Byte := (s.bytes sp)[addr]?

/-- A slot with one more value byte (R9, `Append`). -/
def Slot.push (sl : Slot) (v : Byte) : Slot := { sl with vals := sl.vals ++ [v] }

/-- `Append(space, v)` (R9): a write at the current length, which grows by one. -/
def State.append (s : State) (sp : Space) (v : Byte) : State :=
  match sp with
  | .sec => { s with sec := s.sec ++ [v] }
  | .sh j => { s with slots := s.slots.modify j (fun sl => sl.push v) }

/-- Open the next slot with evaluation point `x` and no bytes (43_data_movement.md R191). -/
def State.openSlot (s : State) (x : Byte) : State := { s with slots := s.slots ++ [⟨x, []⟩] }

/-- `SX[0..CNT-1]` (10_state.md R30). -/
def State.xs (s : State) : List Byte := s.slots.map Slot.x

end Sys2Proof.Machine
end

