-- ==== Sys2Proof/Machine/Ops.lean ====
section
/-!
DEFINITION. The shared operations: how a command succeeds, how it faults (the one exception entry, 60_exceptions.md R222), how it
waits for entropy (70_reset_and_hazards.md R271), the check list in front of a meaning (R223), reset (R260), and how the core
gets its next command (10_state.md R24).
-/

namespace Sys2Proof.Machine

/-- A success with response value `v` (10_state.md R32, 30_encoding.md R75): `LAST <- 0` and the response. -/
def State.succeed (s : State) (v : Half) : State :=
  { s with last := 0x00#8, rsps := s.rsps ++ [okResponse v] }

/-- Fault entry (60_exceptions.md R222): `LAST` gets the code, its bit of `FLTMASK` is set, the response carries it; nothing else
changes. There is no return from it (R226): the next command starts normally. -/
def State.raiseFault (s : State) (f : FaultCode) : State :=
  { s with last := f.code, fltmask := s.fltmask ||| f.bit, rsps := s.rsps ++ [faultResponse f] }

/-- The first failing check of a list, each with the code it raises (R223). -/
def firstFault : List (Bool × FaultCode) → Option FaultCode
  | [] => none
  | (fails, f) :: rest => if fails then some f else firstFault rest

/-- A meaning behind its checks (00_scope.md R10, 60_exceptions.md R223): the first failing one faults the command, else it does
its work. All checks read the state before the command. -/
def checked (s : State) (checks : List (Bool × FaultCode)) (work : Out) : Out :=
  match firstFault checks with
  | some f => .next (s.raiseFault f)
  | none => work

/-- The hold (70_reset_and_hazards.md R271): the command stays in the core, waiting; no architectural state has changed and no
response is produced (60_exceptions.md R236; log 3). -/
def State.hold (s : State) (i : Instr) : State := { s with held := some i }

/-- `n` draws at once (00_scope.md R9, `Draw`): the next `n` bytes of the entropy stream and the state without them, if the
source delivers that many (10_state.md R36). -/
def State.draw (s : State) (n : Nat) : Option (List Byte × State) :=
  if n ≤ s.rnd.length then some (s.rnd.take n, { s with rnd := s.rnd.drop n }) else none

/-- Every piece of state of R20 at its reset value (10_state.md R38, 44_system.md R212). The parameter, the host, the entropy
stream and the responses already given are not the block's state (R26, R38). -/
def State.clear (s : State) : State :=
  { s with
    r := State.reset.r, c := State.reset.c, secv := State.reset.secv, sec := State.reset.sec, shv := State.reset.shv,
    slots := State.reset.slots, last := State.reset.last, fltmask := State.reset.fltmask }

/-- Hardware reset (70_reset_and_hazards.md R260): the reset state; a command in progress is abandoned without a response, and the
`lost` bytes it had already drawn are drawn (10_state.md R36, log 4). -/
def State.hardReset (s : State) (lost : Nat) : State :=
  { s.clear with held := none, rnd := s.rnd.drop lost }

/-- `cmd_ready` between steps: the core can take a command word (30_encoding.md R82, R83). -/
def State.cmdReady (s : State) : Bool := s.held.isNone

/-- `rnd_ready` between steps: a command is waiting for a draw (30_encoding.md R82). -/
def State.rndReady (s : State) : Bool := s.held.isSome

/-- What a step is to do. -/
inductive Work where
  /-- run this command on this state -/
  | run (i : Instr) (s : State)
  /-- no command runs; this is the next state -/
  | done (s : State)
deriving DecidableEq, Repr

/-- A word from the command port (30_encoding.md R76, R77): the command it is, or the `IllegalCommand` fault. -/
def takeWord (s : State) (w : Word) : Work :=
  match decode w with
  | .ok i => .run i s
  | .error _ => .done (s.raiseFault .illegalCommand)

/-- What the core does next. A held command is tried again, and only a hard reset ends its wait otherwise (R271); with no command
held the core takes the host's next word (10_state.md R24), and with none presented it idles with all state retained
(60_exceptions.md R235). A hard reset takes effect as the host's next act, whether a command is held or not (R260). -/
def nextWork (s : State) : Work :=
  match s.host with
  | .hardReset lost :: rest => .done ({ s with host := rest }.hardReset lost)
  | .command w :: rest =>
    match s.held with
    | some i => .run i { s with held := none }
    | none => takeWord { s with host := rest } w
  | [] =>
    match s.held with
    | some i => .run i { s with held := none }
    | none => .done s

/-- The 32-bit word of an instruction given as a number, its bits at `nbits` and above 0 (30_encoding.md R70). -/
def wordOfBits (nbits w : Nat) : Word := BitVec.ofNat 32 (w % 2 ^ nbits)

end Sys2Proof.Machine
end

