-- ==== Sys2Proof/Machine/Field.lean ====
section
/-!
DEFINITION. The field GF(2^8) modulo 0x11B (40_field_arithmetic.md R100 to R109): the pure functions of the adder, the multiplier
and the divider, and the second constructions the spec gives beside its definitions.
-/

namespace Sys2Proof.Machine

/-- `gadd(a, b) = a XOR b` (R101). -/
def gadd (a b : Byte) : Byte := a ^^^ b

/-- `xtime(a)`, the product by `t` (R102). -/
def xtime (a : Byte) : Byte := (a <<< 1) ^^^ (if a.getLsbD 7 then 0x1B#8 else 0x00#8)

/-- One pass of the loop of R103: for bit `i` of `b`, add the running `a` to the product if the bit is 1, then `a <- xtime(a)`. -/
def gmulStep (b : Byte) (pa : Byte × Byte) (i : Nat) : Byte × Byte :=
  (if b.getLsbD i then pa.1 ^^^ pa.2 else pa.1, xtime pa.2)

/-- `gmul(a, b)`, shift and add (R103). -/
def gmul (a b : Byte) : Byte := ((List.range 8).foldl (gmulStep b) (0x00#8, a)).1

/-- The carry-less product of R103's equivalent definition: the XOR of `a << i` over the set bits `i` of `b`, 15 bits. -/
def clmul (a b : Byte) : BitVec 15 :=
  (List.range 8).foldl (fun p i => if b.getLsbD i then p ^^^ (a.setWidth 15 <<< i) else p) 0#15

/-- Its reduction: for `i` from 14 down to 8, a set bit `i` is removed by `POLY << (i - 8)` (R103). -/
def reducePoly (p : BitVec 15) : Byte :=
  ([14, 13, 12, 11, 10, 9, 8].foldl
    (fun p i => if p.getLsbD i then p ^^^ (Config.poly.setWidth 15 <<< (i - 8)) else p) p).setWidth 8

/-- One pass of Fermat's inversion (R105): `s <- s * s`, `r <- r * s`. -/
def ginvStep (rs : Byte × Byte) (_ : Nat) : Byte × Byte :=
  (gmul rs.1 (gmul rs.2 rs.2), gmul rs.2 rs.2)

/-- `ginv(a)` for `a != 0x00`, by Fermat: `a^254` (R105). At `0x00` there is no inverse and no command evaluates it (log 7). -/
def ginv (a : Byte) : Byte := ((List.range 7).foldl ginvStep (0x01#8, a)).1

/-- `deg(p)`: the index of the top set bit (R105). -/
def deg (p : BitVec 9) : Nat := Nat.log2 p.toNat

/-- The loop of the extended Euclid inversion (R105), with a bound on its passes. -/
def ginvEeaLoop : Nat → BitVec 9 → BitVec 9 → BitVec 9 → BitVec 9 → BitVec 9
  | 0, _, _, g1, _ => g1
  | fuel + 1, u, v, g1, g2 =>
    if u = 1 then g1
    else if deg u < deg v then
      ginvEeaLoop fuel (v ^^^ (u <<< (deg v - deg u))) u (g2 ^^^ (g1 <<< (deg v - deg u))) g1
    else
      ginvEeaLoop fuel (u ^^^ (v <<< (deg u - deg v))) v (g1 ^^^ (g2 <<< (deg u - deg v))) g2

/-- `ginv_eea(a)`: the inverse by the extended Euclid algorithm (R105). Each pass lowers `deg u + deg v`, so 16 passes suffice. -/
def ginvEea (a : Byte) : Byte := (ginvEeaLoop 16 (a.setWidth 9) Config.poly 0x001#9 0x000#9).setWidth 8

/-- `gdiv(a, b) = gmul(a, ginv(b))` for `b != 0x00` (R106; log 7). -/
def gdiv (a b : Byte) : Byte := gmul a (ginv b)

/-- One pass of square and multiply (R107): square, then multiply by `a` if bit `i` of `n` is 1. -/
def gpowStep (a n : Byte) (r : Byte) (i : Nat) : Byte :=
  if n.getLsbD i then gmul (gmul r r) a else gmul r r

/-- `gpow(a, n)`: the product of `n` copies of `a`, the empty one `0x01` (R107). -/
def gpow (a n : Byte) : Byte := [7, 6, 5, 4, 3, 2, 1, 0].foldl (gpowStep a n) 0x01#8

end Sys2Proof.Machine
end

