-- ==== Sys2Proof/Machine/FieldArith.lean ====
section
/-!
DEFINITION. The meanings of the field commands GFADD, GFMUL, GFDIV, GFINV, GFPOW (40_field_arithmetic.md R110 to R115).
-/

namespace Sys2Proof.Machine

/-- A result byte goes to `r[rd]` and into the response (R110 to R115): `r[rd] <- v; rsp(zext_16(v))`. -/
def State.finishReg (s : State) (rd : Fin 16) (v : Byte) : State := (s.setReg rd v).succeed (zext16 v)

/-- `GFADD rd, ra, rb` (R110). -/
def execGfadd (rd ra rb : Fin 16) (s : State) : Out := .next (s.finishReg rd (gadd (s.reg ra) (s.reg rb)))

/-- `GFMUL rd, ra, rb` (R111). -/
def execGfmul (rd ra rb : Fin 16) (s : State) : Out := .next (s.finishReg rd (gmul (s.reg ra) (s.reg rb)))

/-- `GFDIV rd, ra, rb` (R112): a zero divisor faults, whatever the dividend. -/
def execGfdiv (rd ra rb : Fin 16) (s : State) : Out :=
  checked s [(s.reg rb = 0x00#8, .divideByZero)]
    (.next (s.finishReg rd (gdiv (s.reg ra) (s.reg rb))))

/-- `GFINV rd, ra` (R114). -/
def execGfinv (rd ra : Fin 16) (s : State) : Out :=
  checked s [(s.reg ra = 0x00#8, .divideByZero)]
    (.next (s.finishReg rd (ginv (s.reg ra))))

/-- `GFPOW rd, ra, rb` (R115): no operand faults. -/
def execGfpow (rd ra rb : Fin 16) (s : State) : Out := .next (s.finishReg rd (gpow (s.reg ra) (s.reg rb)))

end Sys2Proof.Machine
end

