-- ==== Sys2Proof/Machine/DataMovement.lean ====
section
/-!
DEFINITION. The meanings of the data movement commands (43_data_movement.md R180 to R196): scalar registers, coefficient file,
secret buffer, share slots.
-/

namespace Sys2Proof.Machine

/-- `LDI rd, imm8` (R180). -/
def execLdi (rd : Fin 16) (imm : Byte) (s : State) : Out := .next (s.finishReg rd imm)

/-- `MOV rd, ra` (R181). -/
def execMov (rd ra : Fin 16) (s : State) : Out := .next (s.finishReg rd (s.reg ra))

/-- `RDR ra` (R182): a register read out to the host. -/
def execRdr (ra : Fin 16) (s : State) : Out := .next (s.succeed (zext16 (s.reg ra)))

/-- `LDC k, ra` (R183): the response carries no coefficient. -/
def execLdc (k ra : Fin 16) (s : State) : Out := .next ((s.setCoef k (s.reg ra)).succeed 0)

/-- `LDCI k, imm8` (R184). -/
def execLdci (k : Fin 16) (imm : Byte) (s : State) : Out := .next ((s.setCoef k imm).succeed 0)

/-- `LDCR k` (R185): one draw, or the hold until the source delivers it. -/
def execLdcr (k : Fin 16) (s : State) : Out :=
  match s.draw 1 with
  | some (drawn, s') => .next ((s'.setCoef k (drawn.headD 0)).succeed 0)
  | none => .next (s.hold (.ldcr k))

/-- `SECNEW` (R186). -/
def execSecnew (s : State) : Out := .next ({ s with secv := true, sec := [] }.succeed 0)

/-- The shared append to the secret buffer (R187, R188): the response is the new length. -/
def secPush (v : Byte) (s : State) : Out :=
  checked s [(!s.secv, .nullInput), (s.seclen = s.lmax, .capacity)]
    (.next ((s.append .sec v).succeed (count16 (s.seclen + 1))))

/-- `SECPUSH ra` (R187). -/
def execSecpush (ra : Fin 16) (s : State) : Out := secPush (s.reg ra) s

/-- `SECPUSHI imm8` (R188). -/
def execSecpushi (imm : Byte) (s : State) : Out := secPush imm s

/-- `SECRD rd, addr` (R189). -/
def execSecrd (rd : Fin 16) (addr : Half) (s : State) : Out :=
  checked s [(!s.secv, .nullInput), (s.seclen ≤ addr.toNat, .addrRange)]
    (.next (s.finishReg rd ((s.memRead .sec addr.toNat).getD 0)))

/-- `SHNEW` (R190). -/
def execShnew (s : State) : Out := .next ({ s with shv := true, slots := [] }.succeed 0)

/-- The shared opening of a slot (R191, R192): the response is its number. -/
def shOpen (x : Byte) (s : State) : Out :=
  checked s [(!s.shv, .nullInput), (s.cnt = Config.maxShares, .capacity)]
    (.next ((s.openSlot x).succeed (count16 s.cnt)))

/-- `SHOPEN ra` (R191): any byte is accepted as an evaluation point. -/
def execShopen (ra : Fin 16) (s : State) : Out := shOpen (s.reg ra) s

/-- `SHOPENI imm8` (R192). -/
def execShopeni (imm : Byte) (s : State) : Out := shOpen imm s

/-- The shared append to a slot (R193, R194): the response is the new length. -/
def shPush (j : Fin 16) (v : Byte) (s : State) : Out :=
  checked s [(!s.shv, .nullInput), (s.cnt ≤ j.val, .addrRange), (s.slen j.val = s.lmax, .capacity)]
    (.next ((s.append (.sh j.val) v).succeed (count16 (s.slen j.val + 1))))

/-- `SHPUSH j, ra` (R193). -/
def execShpush (j ra : Fin 16) (s : State) : Out := shPush j (s.reg ra) s

/-- `SHPUSHI j, imm8` (R194). -/
def execShpushi (j : Fin 16) (imm : Byte) (s : State) : Out := shPush j imm s

/-- `SHRD rd, j, addr` (R195). -/
def execShrd (rd j : Fin 16) (addr : Half) (s : State) : Out :=
  checked s [(!s.shv, .nullInput), (s.cnt ≤ j.val, .addrRange), (s.slen j.val ≤ addr.toNat, .addrRange)]
    (.next (s.finishReg rd ((s.memRead (.sh j.val) addr.toNat).getD 0)))

/-- `SHX rd, j` (R196). -/
def execShx (rd j : Fin 16) (s : State) : Out :=
  checked s [(!s.shv, .nullInput), (s.cnt ≤ j.val, .addrRange)]
    (.next (s.finishReg rd (s.xs.getD j.val 0)))

end Sys2Proof.Machine
end

