-- ==== Sys2Proof/Machine/Polynomial.lean ====
section
/-!
DEFINITION. The polynomial evaluator and the split (41_polynomial_split.md): EVAL R132, SPLIT R133, over `horner` R131.
-/

namespace Sys2Proof.Machine

/-- Horner's loop over a list of coefficients, constant term first (R131): from the last coefficient down,
`acc <- gadd(gmul(acc, x), c[m])`. The pass over the last coefficient turns the initial `0x00` into it. -/
def hornerList (cs : List Byte) (x : Byte) : Byte := cs.foldr (fun cm acc => gadd (gmul acc x) cm) 0x00#8

/-- `horner(c, k, x)` (R131): it reads `c[0..k-1]`. -/
def horner (c : Vector Byte 16) (k : Nat) (x : Byte) : Byte := hornerList (c.toList.take k) x

/-- `EVAL rd, ra, k` (R132). -/
def execEval (rd ra : Fin 16) (k : Byte) (s : State) : Out :=
  checked s [(k.toNat = 0 ∨ Config.maxCoeff < k.toNat, .invalidThreshold), (s.reg ra = 0x00#8, .reservedX)]
    (.next (s.finishReg rd (horner s.c k.toNat (s.reg ra))))

/-- `SX[j] <- j + 1; SLEN[j] <- 0` for `j = 0 to n-1` (R133, R137): the n empty slots of a split. -/
def splitSlots (n : Nat) : List Slot := (List.range n).map fun j => ⟨BitVec.ofNat 8 (j + 1), []⟩

/-- `c[m] <- v` for each `v` of a list, from index `m` on. -/
def writeCoefs (c : Vector Byte 16) : Nat → List Byte → Vector Byte 16
  | _, [] => c
  | m, v :: vs => writeCoefs (c.setIfInBounds m v) (m + 1) vs

/-- `Append(SH[j], horner(c, k, j + 1))` for every slot (R133); the point `j + 1` is the slot's `SX[j]`. -/
def appendShares (c : Vector Byte 16) (k : Nat) (slots : List Slot) : List Slot :=
  slots.map fun sl => sl.push (horner c k sl.x)

/-- The loop of R133 over the byte positions: `c[0]` from the secret, `c[1..k-1]` from the next `k-1` draws, then one byte to every
slot. -/
def splitLoop (k : Nat) : List Byte → List Byte → Vector Byte 16 → List Slot → Vector Byte 16 × List Slot
  | [], _, c, slots => (c, slots)
  | b :: bs, draws, c, slots =>
    splitLoop k bs (draws.drop (k - 1)) (writeCoefs c 0 (b :: draws.take (k - 1)))
      (appendShares (writeCoefs c 0 (b :: draws.take (k - 1))) k slots)

/-- How many draws `SPLIT k, n` makes (R134): `SECLEN * (k - 1)`. -/
def State.splitDraws (s : State) (k : Nat) : Nat := s.seclen * (k - 1)

/-- The state a split leaves, given its draws (R133): the collection replaced, the coefficient file at the last polynomial. -/
def State.splitWith (s : State) (k n : Nat) (draws : List Byte) : State :=
  { s with
    c := (splitLoop k s.sec draws s.c (splitSlots n)).1, shv := true,
    slots := (splitLoop k s.sec draws s.c (splitSlots n)).2 }

/-- `SPLIT k, n` (R133): the five checks, then the draws (or the hold until they are there), then the work. -/
def execSplit (k n : Byte) (s : State) : Out :=
  checked s
    [ (!s.secv, .nullInput), (s.seclen = 0, .emptyInput), (k.toNat = 0, .invalidThreshold),
      (n.toNat < k.toNat, .invalidThreshold), (Config.maxShares < n.toNat, .tooManyShares) ]
    (match s.draw (s.splitDraws k.toNat) with
      | some (draws, s') => .next ((s'.splitWith k.toNat n.toNat draws).succeed (zext16 n))
      | none => .next (s.hold (.split k n)))

end Sys2Proof.Machine
end

