-- ==== Sys2Proof/Machine/Lagrange.lean ====
section
/-!
DEFINITION. The Lagrange basis engine, the interpolation reducer and recovery (42_lagrange_recover.md): LBASIS R156, INTERP R157,
RECOVER R158, over `num` R151, `den` R152, `basis` R153, `interp` R154 and the checks R155.
-/

namespace Sys2Proof.Machine

/-- `num(i)` (R151): the product of every other point's x. -/
def num (xs : List Byte) (i : Nat) : Byte := (xs.eraseIdx i).foldl (fun n xj => gmul n xj) 0x01#8

/-- `den(i)` (R152): the product of the differences between point `i`'s x and every other point's x. -/
def den (xs : List Byte) (i : Nat) : Byte :=
  (xs.eraseIdx i).foldl (fun d xj => gmul d (gadd (xs.getD i 0) xj)) 0x01#8

/-- `basis(i) = gdiv(num(i), den(i))` (R153), used only after the checks R155, when `den(i) != 0x00` (R163; log 7). -/
def basis (xs : List Byte) (i : Nat) : Byte := gdiv (num xs i) (den xs i)

/-- `interp(p)` (R154): the XOR over the points of y times basis; `ys` are the bytes `SVAL[i][p]`. -/
def interpAt (xs ys : List Byte) : Byte :=
  (List.range xs.length).foldl (fun acc i => gadd acc (gmul (ys.getD i 0) (basis xs i))) 0x00#8

/-- The bytes at position `p` of every slot; used only when every slot has one (R154; log 7). -/
def bytesAt (slots : List Slot) (p : Nat) : List Byte := slots.map fun sl => sl.vals.getD p 0

/-- `interp(p)` over the open slots (R154). -/
def State.interp (s : State) (p : Nat) : Byte := interpAt s.xs (bytesAt s.slots p)

/-- `xchecks()` (R155): an x of 0, then two equal ones. -/
def State.xchecks (s : State) : List (Bool × FaultCode) :=
  [(s.xs.any (· == 0x00#8), .reservedX), (!decide s.xs.Nodup, .duplicateX)]

/-- `LBASIS rn, rd, i` (R156). The decoder admits no word with `rn = rd`; such a term faults as R156 says of the word (log 10). -/
def execLbasis (rn rd i : Fin 16) (s : State) : Out :=
  checked s
    ([ (decide (rn = rd), .illegalCommand), (!s.shv, .nullInput), (decide (s.cnt = 0), .emptyInput),
       (decide (s.cnt ≤ i.val), .addrRange) ] ++ s.xchecks)
    (.next (((s.setReg rn (num s.xs i)).setReg rd (den s.xs i)).succeed (num s.xs i ++ den s.xs i)))

/-- `INTERP rd, pos` (R157). -/
def execInterp (rd : Fin 16) (pos : Half) (s : State) : Out :=
  checked s
    ([ (!s.shv, .nullInput), (decide (s.cnt = 0), .emptyInput),
       (s.slots.any (fun sl => decide (sl.vals.length ≤ pos.toNat)), .addrRange) ] ++ s.xchecks)
    (.next (s.finishReg rd (s.interp pos.toNat)))

/-- The bytes `RECOVER` writes (R158): `out[p] <- interp(p)` for `p = 0 to L-1` with `L = SLEN[0]`. -/
def State.recovered (s : State) : List Byte := (List.range (s.slen 0)).map s.interp

/-- `RECOVER` (R158): all reads, then the secret buffer is replaced. -/
def execRecover (s : State) : Out :=
  checked s
    ([ (!s.shv, .nullInput), (decide (s.cnt = 0), .emptyInput),
       (s.slots.any (fun sl => sl.vals.length != s.slen 0), .sizeMismatch) ] ++ s.xchecks)
    (.next ({ s with secv := true, sec := s.recovered }.succeed (count16 (s.slen 0))))

end Sys2Proof.Machine
end

