-- ==== Sys2Proof/Machine/System.lean ====
section
/-!
DEFINITION. The meanings of the system commands (44_system.md): NOP R210, RDCSR R211, SRESET R212.
-/

namespace Sys2Proof.Machine

/-- `NOP` (R210): no state but `LAST <- 0`. -/
def execNop (s : State) : Out := .next (s.succeed 0)

/-- `RDCSR n` (R211): the value is taken from the state before the command; a number that names no register faults. -/
def execRdcsr (n : Byte) (s : State) : Out :=
  match s.csr n with
  | some v => .next (s.succeed v)
  | none => .next (s.raiseFault .illegalCommand)

/-- `SRESET` (R212): every piece of state of R20 at its reset value. -/
def execSreset (s : State) : Out := .next (s.clear.succeed 0)

end Sys2Proof.Machine
end

