-- ==== Sys2Proof/Machine/Dispatch.lean ====
section
/-!
DEFINITION. One arm per command of 30_encoding.md R76, each one direct call of its meaning.
-/

namespace Sys2Proof.Machine

/-- What a command does to the state once the core has taken it. -/
def exec (i : Instr) (s : State) : Host.Outcome State Fault Refusal :=
    match i with
    | .nop => Sys2Proof.Machine.execNop s
    | .gfadd rd ra rb => Sys2Proof.Machine.execGfadd rd ra rb s
    | .gfmul rd ra rb => Sys2Proof.Machine.execGfmul rd ra rb s
    | .gfdiv rd ra rb => Sys2Proof.Machine.execGfdiv rd ra rb s
    | .gfinv rd ra => Sys2Proof.Machine.execGfinv rd ra s
    | .gfpow rd ra rb => Sys2Proof.Machine.execGfpow rd ra rb s
    | .ldi rd imm => Sys2Proof.Machine.execLdi rd imm s
    | .mov rd ra => Sys2Proof.Machine.execMov rd ra s
    | .rdr ra => Sys2Proof.Machine.execRdr ra s
    | .ldc k ra => Sys2Proof.Machine.execLdc k ra s
    | .ldci k imm => Sys2Proof.Machine.execLdci k imm s
    | .ldcr k => Sys2Proof.Machine.execLdcr k s
    | .secnew => Sys2Proof.Machine.execSecnew s
    | .secpush ra => Sys2Proof.Machine.execSecpush ra s
    | .secpushi imm => Sys2Proof.Machine.execSecpushi imm s
    | .secrd rd addr => Sys2Proof.Machine.execSecrd rd addr s
    | .shnew => Sys2Proof.Machine.execShnew s
    | .shopen ra => Sys2Proof.Machine.execShopen ra s
    | .shopeni imm => Sys2Proof.Machine.execShopeni imm s
    | .shpush j ra => Sys2Proof.Machine.execShpush j ra s
    | .shpushi j imm => Sys2Proof.Machine.execShpushi j imm s
    | .shrd rd j addr => Sys2Proof.Machine.execShrd rd j addr s
    | .shx rd j => Sys2Proof.Machine.execShx rd j s
    | .eval rd ra k => Sys2Proof.Machine.execEval rd ra k s
    | .split k n => Sys2Proof.Machine.execSplit k n s
    | .lbasis rn rd j => Sys2Proof.Machine.execLbasis rn rd j s
    | .interp rd pos => Sys2Proof.Machine.execInterp rd pos s
    | .recover => Sys2Proof.Machine.execRecover s
    | .rdcsr n => Sys2Proof.Machine.execRdcsr n s
    | .sreset => Sys2Proof.Machine.execSreset s

end Sys2Proof.Machine
end

