-- ==== Sys2Proof/Machine/Step.lean ====
section
/-!
DEFINITION. One step of the machine: one whole command (00_scope.md R10, 70_reset_and_hazards.md R275), a hard reset, or an idle
or waiting step. And `withFetchWord`, which puts a word where the next step takes its command.
-/

namespace Sys2Proof.Machine

/-- One step: what `nextWork` says is next. -/
def step (s : State) : Host.Outcome State Fault Refusal :=
  match nextWork s with
  | .run i s' => exec i s'
  | .done s' => .next s'

/-- `s` with this word as the next command the host presents, and no command held, so that the next step takes and runs it
(log 11). -/
def State.withFetchWord (s : State) (nbits w : Nat) : State :=
  { s with held := none, host := .command (wordOfBits nbits w) :: s.host }

end Sys2Proof.Machine
end

