-- ==== Sys2Proof/Safety.lean ====
section
/-!
DEFINITION. What counts as a legal state and a good run of the core, and the terms claims about it are made in.
-/

namespace Sys2Proof.Machine

/-- The state a success leaves, in the numbers of 10_state.md R32 and 30_encoding.md R75: `LAST = 0`, and the response word whose
code is 0 and whose value is `v`. Every other part of `s` is as it stands. -/
def State.afterOk (s : State) (v : Half) : State :=
  { s with last := 0x00#8, rsps := s.rsps ++ [v.setWidth 32] }

/-- The state a fault with this code leaves, in the numbers of 60_exceptions.md R222: `LAST = code`, bit `code` of `FLTMASK` set,
and the response word whose code is `code` and whose value is 0. Every other part of `s` is as it stands. -/
def State.afterFault (s : State) (code : Byte) : State :=
  { s with
    last := code, fltmask := s.fltmask ||| (1#16 <<< code.toNat), rsps := s.rsps ++ [code.setWidth 32 <<< 24] }

/-- The invariants of 10_state.md R39, with the range of `LMAX` (00_scope.md R6) and the two commands that can be held
(10_state.md R36: no other command draws). -/
structure State.Inv (s : State) : Prop where
  null_secret_empty : s.secv = false → s.sec = []
  null_shares_empty : s.shv = false → s.slots = []
  seclen_le : s.sec.length ≤ s.lmax
  cnt_le : s.slots.length ≤ 16
  slen_le : ∀ sl ∈ s.slots, sl.vals.length ≤ s.lmax
  last_le : s.last.toNat ≤ 11
  fltmask_clear : s.fltmask &&& 0xF001#16 = 0#16
  lmax_range : 1 ≤ s.lmax ∧ s.lmax ≤ 65535
  held_draws : ∀ i, s.held = some i → (∃ k, i = .ldcr k) ∨ (∃ k n, i = .split k n)

/-- How many bytes a command draws if it succeeds (10_state.md R36, 41_polynomial_split.md R134). -/
def drawsOf (s : State) : Instr → Nat
  | .ldcr _ => 1
  | .split k _ => s.sec.length * (k.toNat - 1)
  | .nop | .gfadd _ _ _ | .gfmul _ _ _ | .gfdiv _ _ _ | .gfinv _ _ | .gfpow _ _ _ | .ldi _ _ | .mov _ _ | .rdr _ => 0
  | .ldc _ _ | .ldci _ _ | .secnew | .secpush _ | .secpushi _ | .secrd _ _ | .shnew | .shopen _ | .shopeni _ => 0
  | .shpush _ _ | .shpushi _ _ | .shrd _ _ _ | .shx _ _ | .eval _ _ _ | .lbasis _ _ _ | .interp _ _ => 0
  | .recover | .rdcsr _ | .sreset => 0

/-- The scalar registers a command may write (10_state.md R22); SRESET writes all of them. -/
def writesReg : Instr → Fin 16 → Bool
  | .gfadd rd _ _, i | .gfmul rd _ _, i | .gfdiv rd _ _, i | .gfpow rd _ _, i => i == rd
  | .gfinv rd _, i | .mov rd _, i | .ldi rd _, i => i == rd
  | .secrd rd _, i | .shrd rd _ _, i | .shx rd _, i | .eval rd _ _, i | .interp rd _, i => i == rd
  | .lbasis rn rd _, i => i == rn || i == rd
  | .sreset, _ => true
  | .nop, _ | .rdr _, _ | .ldc _ _, _ | .ldci _ _, _ | .ldcr _, _ | .secnew, _ | .secpush _, _ | .secpushi _, _ => false
  | .shnew, _ | .shopen _, _ | .shopeni _, _ | .shpush _ _, _ | .shpushi _ _, _ | .split _ _, _ | .recover, _ => false
  | .rdcsr _, _ => false

/-- The start of a run (70_reset_and_hazards.md R275): the reset state of a block of capacity `lmax`, what the host will present,
and the entropy stream. R275's run has command words alone; that hard resets may stand among the acts is the model's (log 14). -/
def State.start (lmax : Nat) (acts : List HostAct) (rnd : List Byte) : State :=
  { State.reset with lmax := lmax, host := acts, rnd := rnd }

/-- The host's list is used up and no command is held. For a list of command words alone this is R275's complete run: every command
has completed. DESIGN CHOICE (log 14): R275's run has no hard reset in it; after a list with one, this can hold although a command
that the reset abandoned never completed. -/
def State.complete (s : State) : Prop := s.host = [] ∧ s.held = none

/-- A safe run leaves no fault recorded: `FLTMASK = 0` (60_exceptions.md R228). -/
def State.noFaultRecorded (s : State) : Prop := s.fltmask = 0#16

/-- `t` is reached from `s` by steps. -/
inductive Reaches : State → State → Prop
  | refl (s : State) : Reaches s s
  | tail {s t u : State} : Reaches s t → step t = .next u → Reaches s u

/-- The polynomial of 41_polynomial_split.md R130 as the sum of its terms: `c[0] + c[1] x + ... + c[k-1] x^(k-1)`, term `m` with
`gpow(x, m)`, from index `m` on. -/
def polySum (x : Byte) : Nat → List Byte → Byte
  | _, [] => 0x00#8
  | m, cm :: cs => gadd (gmul cm (gpow x (BitVec.ofNat 8 m))) (polySum x (m + 1) cs)

/-- The coefficients of byte position `i` of a split with threshold `k` (R134): the secret byte, then draws
`i * (k - 1), ..., i * (k - 1) + k - 2`. -/
def positionCoefs (sec draws : List Byte) (k i : Nat) : List Byte :=
  sec.getD i 0 :: (draws.drop (i * (k - 1))).take (k - 1)

/-- The formula of 42_lagrange_recover.md R150, factor by factor:
the XOR over `i` of `y_i` times the product over `j != i` of `x_j / (x_i XOR x_j)`. -/
def lagrangeAtZero (xs ys : List Byte) : Byte :=
  (List.range xs.length).foldr (fun i acc => gadd (gmul (ys.getD i 0) (lagrangeFactor xs i)) acc) 0x00#8
where
  /-- the product over `j != i` of `x_j / (x_i XOR x_j)` -/
  lagrangeFactor (xs : List Byte) (i : Nat) : Byte :=
    ((List.range xs.length).filter (fun j => j != i)).foldr
      (fun j acc => gmul (gdiv (xs.getD j 0) (gadd (xs.getD i 0) (xs.getD j 0))) acc) 0x01#8

/-- The product over `j != i`, `j < CNT`, of `f j`: the products of R151 and R152. -/
def productExcept (n i : Nat) (f : Nat → Byte) : Byte :=
  ((List.range n).filter (fun j => j != i)).foldr (fun j acc => gmul (f j) acc) 0x01#8

/-- Every piece of the architectural state of R20 has the value of the table of 10_state.md R38. -/
structure State.ArchReset (s : State) : Prop where
  r : ∀ i : Fin 16, s.r[i] = 0x00#8
  c : ∀ i : Fin 16, s.c[i] = 0x00#8
  secv : s.secv = false
  sec : s.sec = []
  shv : s.shv = false
  slots : s.slots = []
  last : s.last = 0x00#8
  fltmask : s.fltmask = 0x0000#16

/-- The opcodes that 30_encoding.md R77 lists as assigned to no command. -/
def unassignedOp (n : Nat) : Prop :=
  (0x06 ≤ n ∧ n ≤ 0x0F) ∨ (0x13 ≤ n ∧ n ≤ 0x17) ∨ (0x1B ≤ n ∧ n ≤ 0x1F) ∨ (0x24 ≤ n ∧ n ≤ 0x27) ∨ n = 0x2F ∨
  (0x32 ≤ n ∧ n ≤ 0x37) ∨ (0x3B ≤ n ∧ n ≤ 0x7D) ∨ (0x80 ≤ n ∧ n ≤ 0xFF)

/-- The word is a command: it passes the mask and match test of a row, and the one extra test of LBASIS (30_encoding.md R76). -/
def isCommandWord (w : Word) : Prop :=
  ∃ row ∈ opcodeTable, w &&& row.mask = row.pattern ∧ (row.op = 0x38#8 → faField w ≠ fbField w)

/-- The points are usable (42_lagrange_recover.md R155): none is `0x00` and no two are equal. -/
def usablePoints (xs : List Byte) : Prop := 0x00#8 ∉ xs ∧ xs.Nodup

end Sys2Proof.Machine
end

