-- ==== Sys2Proof/Certificates/Slice0/Obligations.lean ====
section
/-!
DEFINITION. The statements for the provers.
`afterOk v` and `afterFault code` are the numbers of R32, R75 and R222 (Sys2Proof/Safety.lean): what a success and a fault add to a
state, everything else as it stands; so an equation `exec i s = .next (… .afterOk v)` states the result, the response and the frame.
-/

open Sys2Proof Sys2Proof.Machine

/-! ## Encoding -/

/-- R73, R76, R80: no operand bit of any command is lost between encoder and decoder. -/
def Obligations.DecodeInvertsEncode : Prop :=
  ∀ i : Instr, i.wf = true → decode (encode i) = .ok i

/-- R77 ("every one of the 2^32 words is either exactly one command or illegal"): a word that decodes is the one word of its command. -/
def Obligations.EncodeInvertsDecode : Prop :=
  ∀ (w : Word) (i : Instr), decode w = .ok i → i.wf = true ∧ encode i = w

/-- R73, R76: `(w AND mask) = match` (and `fa != fb` for LBASIS) is the exact decode test, and the rows are disjoint. -/
def Obligations.MaskAndMatchIsTheDecodeTest : Prop :=
  (∀ w : Word, ∀ row ∈ opcodeTable, w &&& row.mask = row.pattern → (row.op = 0x38#8 → faField w ≠ fbField w) →
    decode w = .ok (row.build w)) ∧
  (∀ (w : Word) (i : Instr), decode w = .ok i →
    ∃ row ∈ opcodeTable, w &&& row.mask = row.pattern ∧ (row.op = 0x38#8 → faField w ≠ fbField w) ∧ i = row.build w) ∧
  (∀ w : Word, ∀ row ∈ opcodeTable, ∀ row' ∈ opcodeTable,
    w &&& row.mask = row.pattern → w &&& row'.mask = row'.pattern → row.op = row'.op)

/-- Words the spec writes out (R80 and the examples of the commands' rules) decode to the commands they stand for. -/
def Obligations.WordsOfTheSpecDecode : Prop :=
  decode 0x02312000#32 = .ok (.gfmul 3 1 2) ∧
  decode 0x04610000#32 = .ok (.gfinv 6 1) ∧
  decode 0x10105700#32 = .ok (.ldi 1 0x57#8) ∧
  decode 0x18110000#32 = .ok (.ldc 1 1) ∧
  decode 0x1A100000#32 = .ok (.ldcr 1) ∧
  decode 0x23100002#32 = .ok (.secrd 1 2#16) ∧
  decode 0x2D410000#32 = .ok (.shrd 4 1 0#16) ∧
  decode 0x30210200#32 = .ok (.eval 2 1 2#8) ∧
  decode 0x31000203#32 = .ok (.split 2#8 3#8) ∧
  decode 0x38120000#32 = .ok (.lbasis 1 2 0) ∧
  decode 0x7E000100#32 = .ok (.rdcsr 1#8)

/-- R77: which opcodes name no command, that every word is exactly one command or illegal, and what an illegal word does. -/
def Obligations.IllegalWordFaultsAndChangesNothingElse : Prop :=
  (∀ w : Word, unassignedOp (opField w).toNat ↔ rowOf (opField w) = none) ∧
  (∀ w : Word, (∃! i : Instr, i.wf = true ∧ encode i = w) ↔ isCommandWord w) ∧
  (∀ (s : State) (w : Word) (rest : List HostAct), s.host = .command w :: rest → s.held = none → ¬ isCommandWord w →
    step s = .next { s with
      host := rest, last := 9#8, fltmask := s.fltmask ||| 0x0200#16, rsps := s.rsps ++ [0x09000000#32] })

/-! ## Steps -/

/-- R24, R56: with no command held, a step runs the command the host's next word is, on the state its predecessor left. -/
def Obligations.StepRunsTheDecodedCommand : Prop :=
  ∀ (s : State) (w : Word) (rest : List HostAct) (i : Instr),
    s.host = .command w :: rest → s.held = none → decode w = .ok i → step s = exec i { s with host := rest }

/-- A word placed by `withFetchWord` is the command the very next step runs (the model's interface, log 11). -/
def Obligations.FetchWordIsTheNextCommand : Prop :=
  ∀ (s : State) (nbits w : Nat) (i : Instr), decodeTableWord nbits w = some i →
    step (s.withFetchWord nbits w) = exec i { s with held := none }

/-- R235: between commands the core idles with all state retained. -/
def Obligations.IdleCoreRetainsItsState : Prop :=
  ∀ s : State, s.host = [] → s.held = none → step s = .next s

/-- R220, R222, R226: no command and no step stops the machine; a fault leaves it ready for the next command. That a command which
waits for draws answers a next state too, and that a step of a held core is one (R271: such a run has no further step), is the
model's form of the wait (log 3, log 8), not the spec's. -/
def Obligations.EveryCommandAndStepAnswersANextState : Prop :=
  (∀ (i : Instr) (s : State), ∃ t : State, exec i s = .next t) ∧ (∀ s : State, ∃ t : State, step s = .next t)

/-- R75: a command gives exactly one response, with code 0..11, bits 23:16 zero, and value 0 on a fault; unless it waits for draws
(R236). That the wait is the state `{ s with held := some i }` is the model's form of it (log 3). -/
def Obligations.EveryCommandAnswersOnceOrHolds : Prop :=
  ∀ (i : Instr) (s t : State), exec i s = .next t →
    (t = { s with held := some i } ∧ s.rnd.length < drawsOf s i) ∨
    (t.held = s.held ∧ ∃ q : Word, t.rsps = s.rsps ++ [q] ∧ (q.extractLsb' 24 8).toNat ≤ 11 ∧ q.extractLsb' 16 8 = 0#8 ∧
      (q.extractLsb' 24 8 ≠ 0#8 → q.extractLsb' 0 16 = 0#16))

/-- R32: after every command that responds, `LAST` is the code of its response. -/
def Obligations.LastIsTheCodeOfTheResponse : Prop :=
  ∀ (i : Instr) (s t : State) (q : Word), exec i s = .next t → t.rsps = s.rsps ++ [q] → t.last = q.extractLsb' 24 8

/-- R222, R227: the state after a faulting command is the state before it but for `LAST`, its bit of `FLTMASK` and the response. -/
def Obligations.FaultingCommandChangesOnlyTheFaultRecord : Prop :=
  ∀ (i : Instr) (s t : State) (q : Word), exec i s = .next t → t.rsps = s.rsps ++ [q] → q.extractLsb' 24 8 ≠ 0#8 →
    q = (q.extractLsb' 24 8).setWidth 32 <<< 24 ∧
    t = { s with
      last := q.extractLsb' 24 8, fltmask := s.fltmask ||| (1#16 <<< (q.extractLsb' 24 8).toNat), rsps := s.rsps ++ [q] }

/-- R33, R228: a bit of `FLTMASK` that is 1 stays 1 through every step but a hard reset and SRESET, in every legal state. -/
def Obligations.FaultMaskIsSticky : Prop :=
  ∀ (s t : State) (b : Nat), s.Inv → step s = .next t → s.fltmask.getLsbD b = true → t.fltmask.getLsbD b = false →
    (∃ lost rest, s.host = .hardReset lost :: rest) ∨
    (∃ w rest, s.host = .command w :: rest ∧ s.held = none ∧ decode w = .ok .sreset)

/-- R33: one read of `FLTMASK` tells that no command has faulted: it is 0 after a command (not SRESET) exactly if it was 0 before and
the command's response, if it gave one, is a success. -/
def Obligations.ClearFaultMaskMeansNoFault : Prop :=
  ∀ (i : Instr) (s t : State), exec i s = .next t → i ≠ .sreset →
    (t.noFaultRecorded ↔ s.noFaultRecorded ∧ (t.rsps = s.rsps ∨ ∃ v : Half, t.rsps = s.rsps ++ [v.setWidth 32]))

/-- R24, R75, R275: with entropy enough for the longest splits, a run of any words, illegal ones among them, takes one step a word,
gives one response a word, and is then complete: R275's word, since this list holds no hard reset (log 14). -/
def Obligations.EveryCommandOfARunIsAnswered : Prop :=
  ∀ (lmax : Nat) (words : List Word) (rnd : List Byte), 1 ≤ lmax → lmax ≤ 65535 → words.length * (lmax * 15) ≤ rnd.length →
    ∃ t : State, core.run words.length (State.start lmax (words.map .command) rnd) = .next t ∧ t.complete ∧
      t.rsps.length = words.length

/-- R38, R260, R261: the reset state, at the start, after SRESET and after hardware reset; reset discards no entropy byte (the bytes
`lost` were drawn before it by the command it abandons: the model's, log 4). -/
def Obligations.ResetLeavesTheStatedValues : Prop :=
  State.reset.ArchReset ∧
  (∀ (s t : State), exec .sreset s = .next t → t.ArchReset ∧ t.rnd = s.rnd) ∧
  (∀ (s t : State) (lost : Nat) (rest : List HostAct), s.host = .hardReset lost :: rest → step s = .next t →
    t.ArchReset ∧ (lost = 0 → t.rnd = s.rnd))

/-- R260: a hard reset abandons a command in progress without a response; the `lost` bytes are the model's (log 4). -/
def Obligations.HardResetAbandonsTheCommandInProgress : Prop :=
  ∀ (s : State) (lost : Nat) (rest : List HostAct), s.host = .hardReset lost :: rest →
    step s = .next
      { r := Vector.replicate 16 0x00#8, c := Vector.replicate 16 0x00#8, secv := false, sec := [], shv := false, slots := [],
        last := 0x00#8, fltmask := 0x0000#16, lmax := s.lmax, host := rest, rnd := s.rnd.drop lost, held := none,
        rsps := s.rsps }

/-! ## Invariants -/

/-- R39 holds of the reset state and of the start of every run of a block with an admissible capacity. -/
def Obligations.ResetStateIsLegal : Prop :=
  State.reset.Inv ∧
  ∀ (lmax : Nat) (acts : List HostAct) (rnd : List Byte), 1 ≤ lmax → lmax ≤ 65535 → (State.start lmax acts rnd).Inv

/-- R39, one step: from every legal state, reachable or not. -/
def Obligations.EveryStepKeepsAStateLegal : Prop :=
  ∀ s t : State, s.Inv → step s = .next t → t.Inv

/-- R39 as it stands: in every state reachable from reset by any command words and entropy stream. That hard resets may stand among
the words, where the invariants hold too, is the model's choice of what a run is (log 14), not R39's. -/
def Obligations.ReachableStatesAreLegal : Prop :=
  ∀ (lmax : Nat) (acts : List HostAct) (rnd : List Byte) (t : State), 1 ≤ lmax → lmax ≤ 65535 →
    Reaches (State.start lmax acts rnd) t →
    (t.secv = false → t.sec.length = 0) ∧ (t.shv = false → t.slots.length = 0) ∧ t.sec.length ≤ t.lmax ∧
    t.slots.length ≤ 16 ∧ (∀ sl ∈ t.slots, sl.vals.length ≤ t.lmax) ∧ t.last.toNat ≤ 11 ∧
    t.fltmask &&& 0xF001#16 = 0#16 ∧ t.lmax = lmax

/-! ## Which command may change what -/

/-- R22: a scalar register changes only if the command names it as a destination. -/
def Obligations.ScalarRegistersChangeOnlyAsDestinations : Prop :=
  ∀ (i : Instr) (s t : State) (j : Fin 16), exec i s = .next t → writesReg i j = false → t.r[j] = s.r[j]

/-- R27, R28, R31, R53: only the commands the spec names write the coefficient file, the secret buffer and the share collection. -/
def Obligations.BuffersChangeOnlyByTheirCommands : Prop :=
  ∀ (i : Instr) (s t : State), exec i s = .next t →
    (t.c ≠ s.c → (∃ k ra, i = .ldc k ra) ∨ (∃ k imm, i = .ldci k imm) ∨ (∃ k, i = .ldcr k) ∨ (∃ k n, i = .split k n) ∨
      i = .sreset) ∧
    (t.sec ≠ s.sec → i = .secnew ∨ (∃ ra, i = .secpush ra) ∨ (∃ imm, i = .secpushi imm) ∨ i = .recover ∨ i = .sreset) ∧
    (t.slots ≠ s.slots → i = .shnew ∨ (∃ ra, i = .shopen ra) ∨ (∃ imm, i = .shopeni imm) ∨ (∃ j ra, i = .shpush j ra) ∨
      (∃ j imm, i = .shpushi j imm) ∨ (∃ k n, i = .split k n) ∨ i = .sreset)

/-- R29: only SRESET (and reset) returns an existence bit to 0; R31: outside SHNEW, SPLIT and SRESET no open slot is removed, no
`SX` changes and no value byte is overwritten. -/
def Obligations.ContainersAreAppendOnly : Prop :=
  ∀ (i : Instr) (s t : State), exec i s = .next t → i ≠ .sreset →
    (s.secv = true → t.secv = true) ∧ (s.shv = true → t.shv = true) ∧
    (i ≠ .shnew → (∀ k n, i ≠ .split k n) → ∀ (j : Nat) (sl : Slot), s.slots[j]? = some sl →
      ∃ sl', t.slots[j]? = some sl' ∧ sl'.x = sl.x ∧ sl.vals <+: sl'.vals)

/-- R36, R134, R222: a command that succeeds has taken exactly its draws from the front of the stream, LDCR one byte, SPLIT
`SECLEN * (k-1)`, every other command none (`drawsOf`); one that faults has taken none. That a waiting command, which has given no
response, leaves the stream whole is the model's form of the wait (log 3). -/
def Obligations.OnlyLdcrAndSplitDraw : Prop :=
  (∀ (s : State) (k : Fin 16), drawsOf s (.ldcr k) = 1) ∧
  (∀ (s : State) (k n : Byte), drawsOf s (.split k n) = s.sec.length * (k.toNat - 1)) ∧
  (∀ (s : State) (i : Instr), (∀ k, i ≠ .ldcr k) → (∀ k n, i ≠ .split k n) → drawsOf s i = 0) ∧
  ∀ (i : Instr) (s t : State), exec i s = .next t →
    (∀ q : Word, t.rsps = s.rsps ++ [q] → q.extractLsb' 24 8 = 0#8 →
      drawsOf s i ≤ s.rnd.length ∧ t.rnd = s.rnd.drop (drawsOf s i)) ∧
    (∀ q : Word, t.rsps = s.rsps ++ [q] → q.extractLsb' 24 8 ≠ 0#8 → t.rnd = s.rnd) ∧
    (t.rsps = s.rsps → t.rnd = s.rnd)

/-- R27: no command but EVAL lets the coefficient file reach anything but the coefficient file: two states that differ in it alone
still differ in it alone, and get the same response. -/
def Obligations.CoefficientFileHasNoReadPath : Prop :=
  ∀ (i : Instr) (s t : State) (c : Vector Byte 16), (∀ rd ra k, i ≠ .eval rd ra k) → exec i s = .next t →
    ∃ c', exec i { s with c := c } = .next { t with c := c' }

/-! ## Waiting for entropy -/

/-- R236, R271: a command that cannot draw waits: the core stays as it is, takes no other command, and completes as if the bytes
had been there from the start once the source delivers them. The field `held` and the steps that leave a waiting state as it is are
the model's form of the wait (log 3). -/
def Obligations.HeldCommandWaitsAndThenCompletes : Prop :=
  ∀ (i : Instr) (s t : State), s.held = none → exec i s = .next t → t.held = some i →
    (∀ lost rest, s.host ≠ .hardReset lost :: rest) →
    t = { s with held := some i } ∧ t.cmdReady = false ∧ step t = .next t ∧
    ∀ bs : List Byte, step { t with rnd := s.rnd ++ bs } = exec i { s with rnd := s.rnd ++ bs }

/-- R36: a command looks at no byte of the stream but the ones it draws. -/
def Obligations.UndrawnBytesAreNotLookedAt : Prop :=
  ∀ (i : Instr) (s t : State) (bs : List Byte), exec i s = .next t → t.held = s.held → s.held = none →
    exec i { s with rnd := s.rnd ++ bs } = .next { t with rnd := t.rnd ++ bs }

/-! ## System commands -/

/-- R210, R211, R212, R34, R35: NOP, SRESET, and RDCSR of every number, on the state before the command. -/
def Obligations.SystemCommandsAnswer : Prop :=
  ∀ s : State,
    exec .nop s = .next (s.afterOk 0) ∧
    exec .sreset s = .next ({ s with
      r := Vector.replicate 16 0x00#8, c := Vector.replicate 16 0x00#8, secv := false, sec := [], shv := false, slots := [],
      last := 0x00#8, fltmask := 0x0000#16 }.afterOk 0) ∧
    exec (.rdcsr 0x00) s = .next (s.afterOk 0x011B) ∧
    (∃ v : Half, v.extractLsb' 0 8 = s.last ∧ v.getLsbD 8 = s.secv ∧ v.getLsbD 9 = s.shv ∧ v.extractLsb' 10 6 = 0#6 ∧
      exec (.rdcsr 0x01) s = .next (s.afterOk v)) ∧
    exec (.rdcsr 0x02) s = .next (s.afterOk s.fltmask) ∧
    exec (.rdcsr 0x03) s = .next (s.afterOk (BitVec.ofNat 16 s.slots.length)) ∧
    exec (.rdcsr 0x04) s = .next (s.afterOk (BitVec.ofNat 16 s.sec.length)) ∧
    exec (.rdcsr 0x05) s = .next (s.afterOk (BitVec.ofNat 16 s.lmax)) ∧
    (∀ (j : Fin 16) (sl : Slot), s.slots[j.val]? = some sl →
      exec (.rdcsr (BitVec.ofNat 8 (0x10 + j.val))) s = .next (s.afterOk (BitVec.ofNat 16 sl.vals.length))) ∧
    (∀ j : Fin 16, s.slots.length ≤ j.val → exec (.rdcsr (BitVec.ofNat 8 (0x10 + j.val))) s = .next (s.afterOk 0)) ∧
    (∀ n : Byte, 0x05 < n.toNat → (n.toNat < 0x10 ∨ 0x1F < n.toNat) → exec (.rdcsr n) s = .next (s.afterFault 9#8))

/-! ## The field -/

/-- R104, whole: the laws of `gmul`. -/
def Obligations.MultiplicationObeysTheFieldLaws : Prop :=
  ∀ a b c : Byte,
    gmul a b = gmul b a ∧ gmul a (gmul b c) = gmul (gmul a b) c ∧ gmul a (gadd b c) = gadd (gmul a b) (gmul a c) ∧
    gmul a 0x01#8 = a ∧ gmul a 0x00#8 = 0x00#8 ∧ (gmul a b = 0x00#8 → a = 0x00#8 ∨ b = 0x00#8) ∧
    gmul a 0x02#8 = xtime a

/-- R103: shift and add equals carry-less multiply and reduce, for all operand pairs. -/
def Obligations.MultiplierIsTheReducedCarrylessProduct : Prop :=
  ∀ a b : Byte, gmul a b = reducePoly (clmul a b)

/-- R105: `ginv a` is the one byte whose product with `a` is 1, and both constructions give it. -/
def Obligations.InverseIsUniqueAndBothConstructionsAgree : Prop :=
  ∀ a : Byte, a ≠ 0x00#8 →
    gmul a (ginv a) = 0x01#8 ∧ (∀ v : Byte, gmul a v = 0x01#8 → v = ginv a) ∧ ginvEea a = ginv a

/-- R106: division undoes multiplication. -/
def Obligations.DivisionUndoesMultiplication : Prop :=
  ∀ a b : Byte, b ≠ 0x00#8 →
    gmul (gdiv a b) b = a ∧ (∀ v : Byte, gmul v b = a → v = gdiv a b) ∧ gdiv 0x00#8 b = 0x00#8 ∧ gdiv b b = 0x01#8 ∧
    gdiv a 0x01#8 = a

/-- R107: `gpow a n` is the product of `n` copies of `a`, and its corner values. -/
def Obligations.PowerIsTheRepeatedProduct : Prop :=
  ∀ a n : Byte,
    gpow a n = (gmul a)^[n.toNat] 0x01#8 ∧ gpow a 0 = 0x01#8 ∧ (1 ≤ n.toNat → gpow 0x00#8 n = 0x00#8) ∧ gpow a 1 = a ∧
    (a ≠ 0x00#8 → gpow a 254 = ginv a ∧ gpow a 255 = 0x01#8)

/-- R113: `0x03` generates the multiplicative group, `0x02` does not, and logarithms of base `0x03` multiply and divide by adding and
subtracting modulo 255. -/
def Obligations.GeneratorGivesLogarithms : Prop :=
  (∀ a : Byte, a ≠ 0x00#8 → ∃ i < 255, gpow 0x03#8 (BitVec.ofNat 8 i) = a) ∧
  (∀ i < 255, ∀ j < 255, gpow 0x03#8 (BitVec.ofNat 8 i) = gpow 0x03#8 (BitVec.ofNat 8 j) → i = j) ∧
  gpow 0x02#8 51 = 0x01#8 ∧
  (∀ i < 255, ∀ j < 255,
    gmul (gpow 0x03#8 (BitVec.ofNat 8 i)) (gpow 0x03#8 (BitVec.ofNat 8 j)) = gpow 0x03#8 (BitVec.ofNat 8 ((i + j) % 255)) ∧
    gdiv (gpow 0x03#8 (BitVec.ofNat 8 i)) (gpow 0x03#8 (BitVec.ofNat 8 j)) =
      gpow 0x03#8 (BitVec.ofNat 8 ((i + 255 - j) % 255)))

/-- R110, R111, R115: results, responses and frames of the field commands that cannot fault. -/
def Obligations.AddMultiplyPowerAnswer : Prop :=
  ∀ (rd ra rb : Fin 16) (s : State),
    exec (.gfadd rd ra rb) s =
      .next ({ s with r := s.r.set rd (s.r[ra] ^^^ s.r[rb]) }.afterOk ((s.r[ra] ^^^ s.r[rb]).setWidth 16)) ∧
    exec (.gfmul rd ra rb) s =
      .next ({ s with r := s.r.set rd (gmul s.r[ra] s.r[rb]) }.afterOk ((gmul s.r[ra] s.r[rb]).setWidth 16)) ∧
    exec (.gfpow rd ra rb) s =
      .next ({ s with r := s.r.set rd (gpow s.r[ra] s.r[rb]) }.afterOk ((gpow s.r[ra] s.r[rb]).setWidth 16))

/-- R112, R114: GFDIV and GFINV write the quotient and the inverse, told by their products; a zero divisor faults DivideByZero. -/
def Obligations.DivideAndInvertAnswerOrFault : Prop :=
  ∀ (rd ra rb : Fin 16) (s : State),
    (s.r[rb] ≠ 0x00#8 → ∃ v : Byte, gmul v s.r[rb] = s.r[ra] ∧
      exec (.gfdiv rd ra rb) s = .next ({ s with r := s.r.set rd v }.afterOk (v.setWidth 16))) ∧
    (s.r[rb] = 0x00#8 → exec (.gfdiv rd ra rb) s = .next (s.afterFault 6#8)) ∧
    (s.r[ra] ≠ 0x00#8 → ∃ v : Byte, gmul s.r[ra] v = 0x01#8 ∧
      exec (.gfinv rd ra) s = .next ({ s with r := s.r.set rd v }.afterOk (v.setWidth 16))) ∧
    (s.r[ra] = 0x00#8 → exec (.gfinv rd ra) s = .next (s.afterFault 6#8))

/-! ## Data movement -/

/-- R180, R181, R182: the scalar register moves. -/
def Obligations.RegisterMovesAnswer : Prop :=
  ∀ (rd ra : Fin 16) (imm : Byte) (s : State),
    exec (.ldi rd imm) s = .next ({ s with r := s.r.set rd imm }.afterOk (imm.setWidth 16)) ∧
    exec (.mov rd ra) s = .next ({ s with r := s.r.set rd s.r[ra] }.afterOk (s.r[ra].setWidth 16)) ∧
    exec (.rdr ra) s = .next (s.afterOk (s.r[ra].setWidth 16))

/-- R183, R184, R185: the coefficient loads; no response carries the byte; LDCR takes one draw, or waits for
it (R236, R271). The state of the wait, `{ s with held := some (.ldcr k) }`, is the model's form of it (log 3). -/
def Obligations.CoefficientLoadsAnswer : Prop :=
  ∀ (k ra : Fin 16) (imm : Byte) (s : State),
    exec (.ldc k ra) s = .next ({ s with c := s.c.set k s.r[ra] }.afterOk 0) ∧
    exec (.ldci k imm) s = .next ({ s with c := s.c.set k imm }.afterOk 0) ∧
    (∀ (b : Byte) (bs : List Byte), s.rnd = b :: bs →
      exec (.ldcr k) s = .next ({ s with c := s.c.set k b, rnd := bs }.afterOk 0)) ∧
    (s.rnd = [] → exec (.ldcr k) s = .next { s with held := some (.ldcr k) })

/-- R186, R190: SECNEW and SHNEW create an empty container whatever was there. -/
def Obligations.NewContainersAreEmpty : Prop :=
  ∀ s : State,
    exec .secnew s = .next ({ s with secv := true, sec := [] }.afterOk 0) ∧
    exec .shnew s = .next ({ s with shv := true, slots := [] }.afterOk 0)

/-- R187, R188: SECPUSH and SECPUSHI append one byte, answer the new length, and touch no other byte; or fault in the order of
R224. -/
def Obligations.SecretPushAppendsOneByte : Prop :=
  ∀ (i : Instr) (v : Byte) (s : State), ((∃ ra, i = .secpush ra ∧ v = s.r[ra]) ∨ i = .secpushi v) →
    (s.secv = true → s.sec.length ≠ s.lmax →
      ∃ t : State, exec i s = .next t ∧ t = { s with sec := t.sec }.afterOk (BitVec.ofNat 16 (s.sec.length + 1)) ∧
        t.sec.length = s.sec.length + 1 ∧ t.memRead .sec s.sec.length = some v ∧
        ∀ sp a, ¬ (sp = .sec ∧ a = s.sec.length) → t.memRead sp a = s.memRead sp a) ∧
    (s.secv = false → exec i s = .next (s.afterFault 1#8)) ∧
    (s.secv = true → s.sec.length = s.lmax → exec i s = .next (s.afterFault 10#8))

/-- R189: SECRD reads the byte at `addr`, or faults. -/
def Obligations.SecretReadAnswersOrFaults : Prop :=
  ∀ (rd : Fin 16) (addr : Half) (s : State),
    (∀ v : Byte, s.secv = true → s.sec[addr.toNat]? = some v →
      exec (.secrd rd addr) s = .next ({ s with r := s.r.set rd v }.afterOk (v.setWidth 16))) ∧
    (s.secv = false → exec (.secrd rd addr) s = .next (s.afterFault 1#8)) ∧
    (s.secv = true → s.sec.length ≤ addr.toNat → exec (.secrd rd addr) s = .next (s.afterFault 11#8))

/-- R191, R192: SHOPEN and SHOPENI open the next slot with any byte as its point and answer its number, or fault. -/
def Obligations.OpeningASlotAnswersItsNumber : Prop :=
  ∀ (i : Instr) (x : Byte) (s : State), ((∃ ra, i = .shopen ra ∧ x = s.r[ra]) ∨ i = .shopeni x) →
    (s.shv = true → s.slots.length ≠ 16 →
      exec i s = .next ({ s with slots := s.slots ++ [(⟨x, []⟩ : Slot)] }.afterOk (BitVec.ofNat 16 s.slots.length))) ∧
    (s.shv = false → exec i s = .next (s.afterFault 1#8)) ∧
    (s.shv = true → s.slots.length = 16 → exec i s = .next (s.afterFault 10#8))

/-- R193, R194: SHPUSH and SHPUSHI append one byte to slot `j`, answer its new length, and touch no other byte and no point; or
fault in the order of R224. -/
def Obligations.SharePushAppendsOneByte : Prop :=
  ∀ (i : Instr) (j : Fin 16) (v : Byte) (s : State), ((∃ ra, i = .shpush j ra ∧ v = s.r[ra]) ∨ i = .shpushi j v) →
    (∀ sl : Slot, s.shv = true → s.slots[j.val]? = some sl → sl.vals.length ≠ s.lmax →
      ∃ t : State, exec i s = .next t ∧ t = { s with slots := t.slots }.afterOk (BitVec.ofNat 16 (sl.vals.length + 1)) ∧
        t.slots.map Slot.x = s.slots.map Slot.x ∧ t.memRead (.sh j.val) sl.vals.length = some v ∧
        (∃ sl', t.slots[j.val]? = some sl' ∧ sl'.vals.length = sl.vals.length + 1) ∧
        ∀ sp a, ¬ (sp = .sh j.val ∧ a = sl.vals.length) → t.memRead sp a = s.memRead sp a) ∧
    (s.shv = false → exec i s = .next (s.afterFault 1#8)) ∧
    (s.shv = true → s.slots.length ≤ j.val → exec i s = .next (s.afterFault 11#8)) ∧
    (∀ sl : Slot, s.shv = true → s.slots[j.val]? = some sl → sl.vals.length = s.lmax →
      exec i s = .next (s.afterFault 10#8))

/-- R195, R196: SHRD and SHX read a value byte and the point of an open slot, or fault. -/
def Obligations.ShareReadsAnswerOrFault : Prop :=
  ∀ (rd j : Fin 16) (addr : Half) (s : State),
    (∀ (sl : Slot) (v : Byte), s.shv = true → s.slots[j.val]? = some sl → sl.vals[addr.toNat]? = some v →
      exec (.shrd rd j addr) s = .next ({ s with r := s.r.set rd v }.afterOk (v.setWidth 16))) ∧
    (∀ sl : Slot, s.shv = true → s.slots[j.val]? = some sl → sl.vals.length ≤ addr.toNat →
      exec (.shrd rd j addr) s = .next (s.afterFault 11#8)) ∧
    (∀ sl : Slot, s.shv = true → s.slots[j.val]? = some sl →
      exec (.shx rd j) s = .next ({ s with r := s.r.set rd sl.x }.afterOk (sl.x.setWidth 16))) ∧
    (s.shv = false → exec (.shrd rd j addr) s = .next (s.afterFault 1#8) ∧ exec (.shx rd j) s = .next (s.afterFault 1#8)) ∧
    (s.shv = true → s.slots.length ≤ j.val →
      exec (.shrd rd j addr) s = .next (s.afterFault 11#8) ∧ exec (.shx rd j) s = .next (s.afterFault 11#8))

/-- R81: the two commands of POINT, on a collection with `j` open slots, open slot `j` as the point `(x, y)`. -/
def Obligations.PointOpensOneShare : Prop :=
  ∀ (j : Fin 16) (x y : Byte) (s : State), s.shv = true → s.slots.length = j.val → 1 ≤ s.lmax →
    ∃ t u : State, Pseudo.expand (.point j x y) = [.shopeni x, .shpushi j y] ∧ exec (.shopeni x) s = .next t ∧
      exec (.shpushi j y) t = .next u ∧ u.slots = s.slots ++ [(⟨x, [y]⟩ : Slot)] ∧ u.last = 0#8

/-! ## Polynomial evaluation and split -/

/-- R130, R131, R132: EVAL writes the value of the polynomial `c[0..k-1]`, as the sum of its terms, at a nonzero point; or faults. -/
def Obligations.EvalWritesThePolynomialsValue : Prop :=
  ∀ (rd ra : Fin 16) (k : Byte) (s : State),
    (1 ≤ k.toNat → k.toNat ≤ 16 → s.r[ra] ≠ 0x00#8 →
      exec (.eval rd ra k) s = .next ({ s with r := s.r.set rd (polySum s.r[ra] 0 (s.c.toList.take k.toNat)) }.afterOk
        ((polySum s.r[ra] 0 (s.c.toList.take k.toNat)).setWidth 16))) ∧
    (k.toNat = 0 ∨ 16 < k.toNat → exec (.eval rd ra k) s = .next (s.afterFault 3#8)) ∧
    (1 ≤ k.toNat → k.toNat ≤ 16 → s.r[ra] = 0x00#8 → exec (.eval rd ra k) s = .next (s.afterFault 8#8))

/-- R133, R134, R137, R27: a split leaves slot `j` with point `j + 1` and byte `i` the value there of position `i`'s polynomial,
whose coefficients are the secret byte and the draws in order; the last polynomial stays in `c[0..k-1]`. -/
def Obligations.SplitSharesAreThePolynomialsValues : Prop :=
  ∀ (k n : Byte) (s : State), s.secv = true → s.sec ≠ [] → 1 ≤ k.toNat → k.toNat ≤ n.toNat → n.toNat ≤ 16 →
    s.sec.length * (k.toNat - 1) ≤ s.rnd.length →
    ∃ t : State, exec (.split k n) s = .next t ∧
      t = { s with
        c := t.c, shv := true, slots := t.slots, rnd := s.rnd.drop (s.sec.length * (k.toNat - 1)) }.afterOk (n.setWidth 16) ∧
      t.slots.length = n.toNat ∧
      (∀ (j : Nat) (sl : Slot), t.slots[j]? = some sl →
        sl.x = BitVec.ofNat 8 (j + 1) ∧ sl.vals.length = s.sec.length ∧
        ∀ i < s.sec.length,
          sl.vals[i]? = some (polySum (BitVec.ofNat 8 (j + 1)) 0 (positionCoefs s.sec s.rnd k.toNat i))) ∧
      ∀ m : Fin 16, t.c[m] =
        if m.val < k.toNat then (positionCoefs s.sec s.rnd k.toNat (s.sec.length - 1)).getD m.val 0 else s.c[m]

/-- R133, R224: the checks of SPLIT, in order; a faulting SPLIT draws nothing and writes nothing. With its checks passed and too few
draws delivered it waits with nothing changed (R236, R271); the state of the wait, `{ s with held := some (.split k n) }`, is the
model's form of it (log 3). -/
def Obligations.SplitFaultsInOrder : Prop :=
  ∀ (k n : Byte) (s : State),
    (s.secv = false → exec (.split k n) s = .next (s.afterFault 1#8)) ∧
    (s.secv = true → s.sec = [] → exec (.split k n) s = .next (s.afterFault 2#8)) ∧
    (s.secv = true → s.sec ≠ [] → (k.toNat = 0 ∨ n.toNat < k.toNat) → exec (.split k n) s = .next (s.afterFault 3#8)) ∧
    (s.secv = true → s.sec ≠ [] → 1 ≤ k.toNat → k.toNat ≤ n.toNat → 16 < n.toNat →
      exec (.split k n) s = .next (s.afterFault 4#8)) ∧
    (s.secv = true → s.sec ≠ [] → 1 ≤ k.toNat → k.toNat ≤ n.toNat → n.toNat ≤ 16 →
      s.rnd.length < s.sec.length * (k.toNat - 1) → exec (.split k n) s = .next { s with held := some (.split k n) })

/-- R135: threshold 1 consumes no entropy and copies the secret into every share. -/
def Obligations.ThresholdOneCopiesTheSecret : Prop :=
  ∀ (n : Byte) (s : State), s.secv = true → s.sec ≠ [] → 1 ≤ n.toNat → n.toNat ≤ 16 →
    ∃ t : State, exec (.split 1 n) s = .next t ∧ t.rnd = s.rnd ∧ t.slots.length = n.toNat ∧ ∀ sl ∈ t.slots, sl.vals = s.sec

/-! ## Lagrange basis, interpolation, recovery -/

/-- R151, R152, R156: LBASIS writes the products over the other points, numerator and denominator, in two registers. -/
def Obligations.LbasisWritesNumeratorAndDenominator : Prop :=
  ∀ (rn rd i : Fin 16) (s : State), rn ≠ rd → s.shv = true → i.val < s.slots.length → usablePoints (s.slots.map Slot.x) →
    ∃ n d : Byte,
      n = productExcept s.slots.length i.val (fun j => (s.slots.map Slot.x).getD j 0) ∧
      d = productExcept s.slots.length i.val
        (fun j => gadd ((s.slots.map Slot.x).getD i.val 0) ((s.slots.map Slot.x).getD j 0)) ∧
      exec (.lbasis rn rd i) s = .next ({ s with r := (s.r.set rn n).set rd d }.afterOk (n ++ d))

/-- R150, R153, R154, R157: INTERP writes the value of the recovery formula, factor by factor, at one byte position. -/
def Obligations.InterpWritesTheRecoveryFormula : Prop :=
  ∀ (rd : Fin 16) (pos : Half) (s : State), s.shv = true → s.slots ≠ [] → (∀ sl ∈ s.slots, pos.toNat < sl.vals.length) →
    usablePoints (s.slots.map Slot.x) →
    ∃ v : Byte, v = lagrangeAtZero (s.slots.map Slot.x) (s.slots.map (fun sl : Slot => sl.vals.getD pos.toNat 0)) ∧
      exec (.interp rd pos) s = .next ({ s with r := s.r.set rd v }.afterOk (v.setWidth 16))

/-- R158: RECOVER replaces the secret buffer by the value of the recovery formula at every byte position, nothing else. -/
def Obligations.RecoverReplacesTheSecret : Prop :=
  ∀ (len : Nat) (s : State), s.shv = true → s.slots ≠ [] → (∀ sl ∈ s.slots, sl.vals.length = len) →
    usablePoints (s.slots.map Slot.x) →
    exec .recover s = .next ({ s with
      secv := true,
      sec := (List.range len).map (fun p =>
        lagrangeAtZero (s.slots.map Slot.x) (s.slots.map (fun sl : Slot => sl.vals.getD p 0))) }.afterOk (BitVec.ofNat 16 len))

/-- R155, R156, R157, R158, R224: the checks of the three Lagrange commands, in order. -/
def Obligations.LagrangeCommandsFaultInOrder : Prop :=
  ∀ (rn rd i : Fin 16) (pos : Half) (s : State), rn ≠ rd →
    (s.shv = false → exec (.lbasis rn rd i) s = .next (s.afterFault 1#8) ∧
      exec (.interp rd pos) s = .next (s.afterFault 1#8) ∧ exec .recover s = .next (s.afterFault 1#8)) ∧
    (s.shv = true → s.slots = [] → exec (.lbasis rn rd i) s = .next (s.afterFault 2#8) ∧
      exec (.interp rd pos) s = .next (s.afterFault 2#8) ∧ exec .recover s = .next (s.afterFault 2#8)) ∧
    (s.shv = true → s.slots ≠ [] → s.slots.length ≤ i.val → exec (.lbasis rn rd i) s = .next (s.afterFault 11#8)) ∧
    (s.shv = true → (∃ sl ∈ s.slots, sl.vals.length ≤ pos.toNat) → exec (.interp rd pos) s = .next (s.afterFault 11#8)) ∧
    (s.shv = true → (∃ sl ∈ s.slots, ∃ sl' ∈ s.slots, sl.vals.length ≠ sl'.vals.length) →
      exec .recover s = .next (s.afterFault 5#8)) ∧
    (∀ code : Byte, s.shv = true → s.slots ≠ [] →
      (code = 8#8 ∧ 0x00#8 ∈ s.slots.map Slot.x) ∨
        (code = 7#8 ∧ 0x00#8 ∉ s.slots.map Slot.x ∧ ¬ (s.slots.map Slot.x).Nodup) →
      (i.val < s.slots.length → exec (.lbasis rn rd i) s = .next (s.afterFault code)) ∧
      ((∀ sl ∈ s.slots, pos.toNat < sl.vals.length) → exec (.interp rd pos) s = .next (s.afterFault code)) ∧
      ((∀ sl ∈ s.slots, ∀ sl' ∈ s.slots, sl.vals.length = sl'.vals.length) →
        exec .recover s = .next (s.afterFault code)))

/-- R152, R163: a denominator is 0 exactly when another point has the same x; so past the checks none is, and only GFDIV and GFINV
ever raise DivideByZero. -/
def Obligations.NoDivisionByZeroInsideTheLagrangeCommands : Prop :=
  (∀ (xs : List Byte) (i : Nat) (hi : i < xs.length),
    (den xs i = 0x00#8 ↔ ∃ (j : Nat) (hj : j < xs.length), j ≠ i ∧ xs[j] = xs[i])) ∧
  (∀ (xs : List Byte) (i : Nat), usablePoints xs → i < xs.length → den xs i ≠ 0x00#8 ∧ num xs i ≠ 0x00#8) ∧
  (∀ (i : Instr) (s t : State), exec i s = .next t → t.rsps = s.rsps ++ [0x06000000#32] →
    (∃ rd ra rb, i = .gfdiv rd ra rb) ∨ (∃ rd ra, i = .gfinv rd ra))

/-- R159: with one usable point the basis is 1 and interpolation returns that slot's byte. -/
def Obligations.OnePointReturnsItsOwnByte : Prop :=
  ∀ (s : State) (sl : Slot), s.slots = [sl] → sl.x ≠ 0x00#8 →
    num s.xs 0 = 0x01#8 ∧ den s.xs 0 = 0x01#8 ∧ basis s.xs 0 = 0x01#8 ∧
    ∀ (p : Nat) (v : Byte), sl.vals[p]? = some v → s.interp p = v

/-- R164: the order in which the slots were opened changes no result. -/
def Obligations.OrderOfSlotsIsImmaterial : Prop :=
  ∀ (s : State) (slots' : List Slot) (p : Nat), usablePoints (s.slots.map Slot.x) → slots'.Perm s.slots →
    { s with slots := slots' }.interp p = s.interp p

/-- R160, R161: shares of one split, any at least `k` of them in any order, recover the secret, for every draw sequence. -/
def Obligations.SplitThenRecoverRestoresTheSecret : Prop :=
  ∀ (k n : Byte) (s t u : State), s.secv = true → s.sec ≠ [] → 1 ≤ k.toNat → k.toNat ≤ n.toNat → n.toNat ≤ 16 →
    s.sec.length * (k.toNat - 1) ≤ s.rnd.length → exec (.split k n) s = .next t →
    u.shv = true → k.toNat ≤ u.slots.length → u.slots.Nodup → (∀ sl ∈ u.slots, sl ∈ t.slots) →
    exec .recover u = .next ({ u with secv := true, sec := s.sec }.afterOk (BitVec.ofNat 16 s.sec.length)) ∧
    ∀ (rd : Fin 16) (pos : Half) (b : Byte), s.sec[pos.toNat]? = some b →
      exec (.interp rd pos) u = .next ({ u with r := u.r.set rd b }.afterOk (b.setWidth 16))

/-- R162: on two shares of a split with threshold 3, INTERP and RECOVER both succeed (code 0) and return `S XOR a_2 x_1 x_2` at each
byte position, which is `S` exactly when `a_2` was drawn as 0; nothing detects it. -/
def Obligations.UnderThresholdRecoveryIsNotDetected : Prop :=
  ∀ (n : Byte) (s t u : State) (sl sl' : Slot), s.secv = true → s.sec ≠ [] → 3 ≤ n.toNat → n.toNat ≤ 16 →
    s.sec.length * 2 ≤ s.rnd.length → exec (.split 3 n) s = .next t →
    u.shv = true → u.slots = [sl, sl'] → sl ∈ t.slots → sl' ∈ t.slots → sl ≠ sl' →
    ∃ bytes : List Byte, bytes.length = s.sec.length ∧
      (∀ p < s.sec.length, ∃ a2 : Byte, a2 = (positionCoefs s.sec s.rnd 3 p).getD 2 0 ∧
        bytes.getD p 0 = gadd (s.sec.getD p 0) (gmul a2 (gmul sl.x sl'.x)) ∧ (bytes.getD p 0 = s.sec.getD p 0 ↔ a2 = 0x00#8)) ∧
      (∀ (rd : Fin 16) (pos : Half), pos.toNat < s.sec.length →
        exec (.interp rd pos) u = .next ({ u with r := u.r.set rd (bytes.getD pos.toNat 0) }.afterOk
          ((bytes.getD pos.toNat 0).setWidth 16))) ∧
      exec .recover u = .next ({ u with secv := true, sec := bytes }.afterOk (BitVec.ofNat 16 s.sec.length))

/-- R140: below the threshold the shares say nothing: whatever `k - 1` points and values are seen, every secret byte is explained by
exactly one choice of the `k - 1` drawn coefficients. -/
def Obligations.BelowThresholdEverySecretIsExplainedOnce : Prop :=
  ∀ (xs ys : List Byte) (secret : Byte), usablePoints xs → ys.length = xs.length →
    ∃! draws : List Byte, draws.length = xs.length ∧ ∀ i < xs.length, hornerList (secret :: draws) (xs.getD i 0) = ys.getD i 0
end

