-- ==== Sys2Proof/Laws/Encode.lean ====
section
/-!
SUPPORT. Fields and places of a command word (30_encoding.md R71): what each field reads of an operand put in its place, that an
operand's place lies outside the masks of the rows that use it, and that placing a field read from a word gives the word's own bits
there.
-/

namespace Sys2Proof

/-! A field of a 4-bit or 8-bit operand in its place. -/

@[simp] theorem op_place4_20 (i : Fin 16) : (place4 20 i).extractLsb' 24 8 = 0#8 := by revert i; decide
@[simp] theorem fa_place4_20 (i : Fin 16) : (place4 20 i).extractLsb' 20 4 = BitVec.ofFin i := by revert i; decide
@[simp] theorem fb_place4_20 (i : Fin 16) : (place4 20 i).extractLsb' 16 4 = 0#4 := by revert i; decide
@[simp] theorem fc_place4_20 (i : Fin 16) : (place4 20 i).extractLsb' 12 4 = 0#4 := by revert i; decide
@[simp] theorem imm8_place4_20 (i : Fin 16) : (place4 20 i).extractLsb' 8 8 = 0#8 := by revert i; decide
@[simp] theorem n8_place4_20 (i : Fin 16) : (place4 20 i).extractLsb' 0 8 = 0#8 := by revert i; decide
@[simp] theorem imm16_place4_20 (i : Fin 16) : (place4 20 i).extractLsb' 0 16 = 0#16 := by revert i; decide
@[simp] theorem op_place4_16 (i : Fin 16) : (place4 16 i).extractLsb' 24 8 = 0#8 := by revert i; decide
@[simp] theorem fa_place4_16 (i : Fin 16) : (place4 16 i).extractLsb' 20 4 = 0#4 := by revert i; decide
@[simp] theorem fb_place4_16 (i : Fin 16) : (place4 16 i).extractLsb' 16 4 = BitVec.ofFin i := by revert i; decide
@[simp] theorem fc_place4_16 (i : Fin 16) : (place4 16 i).extractLsb' 12 4 = 0#4 := by revert i; decide
@[simp] theorem imm8_place4_16 (i : Fin 16) : (place4 16 i).extractLsb' 8 8 = 0#8 := by revert i; decide
@[simp] theorem n8_place4_16 (i : Fin 16) : (place4 16 i).extractLsb' 0 8 = 0#8 := by revert i; decide
@[simp] theorem imm16_place4_16 (i : Fin 16) : (place4 16 i).extractLsb' 0 16 = 0#16 := by revert i; decide
@[simp] theorem op_place4_12 (i : Fin 16) : (place4 12 i).extractLsb' 24 8 = 0#8 := by revert i; decide
@[simp] theorem fa_place4_12 (i : Fin 16) : (place4 12 i).extractLsb' 20 4 = 0#4 := by revert i; decide
@[simp] theorem fb_place4_12 (i : Fin 16) : (place4 12 i).extractLsb' 16 4 = 0#4 := by revert i; decide
@[simp] theorem fc_place4_12 (i : Fin 16) : (place4 12 i).extractLsb' 12 4 = BitVec.ofFin i := by revert i; decide
@[simp] theorem n8_place4_12 (i : Fin 16) : (place4 12 i).extractLsb' 0 8 = 0#8 := by revert i; decide
@[simp] theorem op_place8_8 (b : Byte) : (place8 8 b).extractLsb' 24 8 = 0#8 := by
  apply BitVec.eq_of_getLsbD_eq; intro j hj; interval_cases j <;> simp [place8]
@[simp] theorem fa_place8_8 (b : Byte) : (place8 8 b).extractLsb' 20 4 = 0#4 := by
  apply BitVec.eq_of_getLsbD_eq; intro j hj; interval_cases j <;> simp [place8]
@[simp] theorem fb_place8_8 (b : Byte) : (place8 8 b).extractLsb' 16 4 = 0#4 := by
  apply BitVec.eq_of_getLsbD_eq; intro j hj; interval_cases j <;> simp [place8]
@[simp] theorem imm8_place8_8 (b : Byte) : (place8 8 b).extractLsb' 8 8 = b := by
  apply BitVec.eq_of_getLsbD_eq; intro j hj; interval_cases j <;> simp [place8]
@[simp] theorem n8_place8_8 (b : Byte) : (place8 8 b).extractLsb' 0 8 = 0#8 := by
  apply BitVec.eq_of_getLsbD_eq; intro j hj; interval_cases j <;> simp [place8]
@[simp] theorem op_place8_0 (b : Byte) : (place8 0 b).extractLsb' 24 8 = 0#8 := by
  apply BitVec.eq_of_getLsbD_eq; intro j hj; interval_cases j <;> simp [place8]
@[simp] theorem fa_place8_0 (b : Byte) : (place8 0 b).extractLsb' 20 4 = 0#4 := by
  apply BitVec.eq_of_getLsbD_eq; intro j hj; interval_cases j <;> simp [place8]
@[simp] theorem fb_place8_0 (b : Byte) : (place8 0 b).extractLsb' 16 4 = 0#4 := by
  apply BitVec.eq_of_getLsbD_eq; intro j hj; interval_cases j <;> simp [place8]
@[simp] theorem fc_place8_0 (b : Byte) : (place8 0 b).extractLsb' 12 4 = 0#4 := by
  apply BitVec.eq_of_getLsbD_eq; intro j hj; interval_cases j <;> simp [place8]
@[simp] theorem imm8_place8_0 (b : Byte) : (place8 0 b).extractLsb' 8 8 = 0#8 := by
  apply BitVec.eq_of_getLsbD_eq; intro j hj; interval_cases j <;> simp [place8]
@[simp] theorem n8_place8_0 (b : Byte) : (place8 0 b).extractLsb' 0 8 = b := by
  apply BitVec.eq_of_getLsbD_eq; intro j hj; interval_cases j <;> simp [place8]

/-! A field of a 16-bit operand in its place. -/

@[simp] theorem op_place16 (h : Half) : (place16 h).extractLsb' 24 8 = 0#8 := by
  apply BitVec.eq_of_getLsbD_eq; intro j hj; interval_cases j <;> simp [place16]
@[simp] theorem fa_place16 (h : Half) : (place16 h).extractLsb' 20 4 = 0#4 := by
  apply BitVec.eq_of_getLsbD_eq; intro j hj; interval_cases j <;> simp [place16]
@[simp] theorem fb_place16 (h : Half) : (place16 h).extractLsb' 16 4 = 0#4 := by
  apply BitVec.eq_of_getLsbD_eq; intro j hj; interval_cases j <;> simp [place16]
@[simp] theorem imm16_place16 (h : Half) : (place16 h).extractLsb' 0 16 = h := by
  apply BitVec.eq_of_getLsbD_eq; intro j hj; interval_cases j <;> simp [place16]

/-! An operand's place and the masks that leave it free. -/

@[simp] theorem place4_20_and_FF000FFF (i : Fin 16) : place4 20 i &&& 0xFF000FFF#32 = 0#32 := by revert i; decide
@[simp] theorem place4_16_and_FF000FFF (i : Fin 16) : place4 16 i &&& 0xFF000FFF#32 = 0#32 := by revert i; decide
@[simp] theorem place4_12_and_FF000FFF (i : Fin 16) : place4 12 i &&& 0xFF000FFF#32 = 0#32 := by revert i; decide
@[simp] theorem place4_20_and_FF00FFFF (i : Fin 16) : place4 20 i &&& 0xFF00FFFF#32 = 0#32 := by revert i; decide
@[simp] theorem place4_16_and_FF00FFFF (i : Fin 16) : place4 16 i &&& 0xFF00FFFF#32 = 0#32 := by revert i; decide
@[simp] theorem place4_20_and_FF0F00FF (i : Fin 16) : place4 20 i &&& 0xFF0F00FF#32 = 0#32 := by revert i; decide
@[simp] theorem place4_12_and_FF0F00FF (i : Fin 16) : place4 12 i &&& 0xFF0F00FF#32 = 0#32 := by revert i; decide
@[simp] theorem place8_8_and_FF0F00FF (b : Byte) : place8 8 b &&& 0xFF0F00FF#32 = 0#32 := by
  apply BitVec.eq_of_getLsbD_eq; intro j hj; interval_cases j <;> simp [place8]
@[simp] theorem place4_16_and_FFF0FFFF (i : Fin 16) : place4 16 i &&& 0xFFF0FFFF#32 = 0#32 := by revert i; decide
@[simp] theorem place4_20_and_FF0FFFFF (i : Fin 16) : place4 20 i &&& 0xFF0FFFFF#32 = 0#32 := by revert i; decide
@[simp] theorem place4_12_and_FFFF00FF (i : Fin 16) : place4 12 i &&& 0xFFFF00FF#32 = 0#32 := by revert i; decide
@[simp] theorem place8_8_and_FFFF00FF (b : Byte) : place8 8 b &&& 0xFFFF00FF#32 = 0#32 := by
  apply BitVec.eq_of_getLsbD_eq; intro j hj; interval_cases j <;> simp [place8]
@[simp] theorem place4_20_and_FF0F0000 (i : Fin 16) : place4 20 i &&& 0xFF0F0000#32 = 0#32 := by revert i; decide
@[simp] theorem place4_12_and_FF0F0000 (i : Fin 16) : place4 12 i &&& 0xFF0F0000#32 = 0#32 := by revert i; decide
@[simp] theorem place8_8_and_FF0F0000 (b : Byte) : place8 8 b &&& 0xFF0F0000#32 = 0#32 := by
  apply BitVec.eq_of_getLsbD_eq; intro j hj; interval_cases j <;> simp [place8]
@[simp] theorem place8_0_and_FF0F0000 (b : Byte) : place8 0 b &&& 0xFF0F0000#32 = 0#32 := by
  apply BitVec.eq_of_getLsbD_eq; intro j hj; interval_cases j <;> simp [place8]
@[simp] theorem place16_and_FF0F0000 (h : Half) : place16 h &&& 0xFF0F0000#32 = 0#32 := by
  apply BitVec.eq_of_getLsbD_eq; intro j hj; interval_cases j <;> simp [place16]
@[simp] theorem place4_20_and_FF000000 (i : Fin 16) : place4 20 i &&& 0xFF000000#32 = 0#32 := by revert i; decide
@[simp] theorem place4_16_and_FF000000 (i : Fin 16) : place4 16 i &&& 0xFF000000#32 = 0#32 := by revert i; decide
@[simp] theorem place4_12_and_FF000000 (i : Fin 16) : place4 12 i &&& 0xFF000000#32 = 0#32 := by revert i; decide
@[simp] theorem place8_8_and_FF000000 (b : Byte) : place8 8 b &&& 0xFF000000#32 = 0#32 := by
  apply BitVec.eq_of_getLsbD_eq; intro j hj; interval_cases j <;> simp [place8]
@[simp] theorem place8_0_and_FF000000 (b : Byte) : place8 0 b &&& 0xFF000000#32 = 0#32 := by
  apply BitVec.eq_of_getLsbD_eq; intro j hj; interval_cases j <;> simp [place8]
@[simp] theorem place16_and_FF000000 (h : Half) : place16 h &&& 0xFF000000#32 = 0#32 := by
  apply BitVec.eq_of_getLsbD_eq; intro j hj; interval_cases j <;> simp [place16]
@[simp] theorem place4_20_and_FF0000FF (i : Fin 16) : place4 20 i &&& 0xFF0000FF#32 = 0#32 := by revert i; decide
@[simp] theorem place4_16_and_FF0000FF (i : Fin 16) : place4 16 i &&& 0xFF0000FF#32 = 0#32 := by revert i; decide
@[simp] theorem place4_12_and_FF0000FF (i : Fin 16) : place4 12 i &&& 0xFF0000FF#32 = 0#32 := by revert i; decide
@[simp] theorem place8_8_and_FF0000FF (b : Byte) : place8 8 b &&& 0xFF0000FF#32 = 0#32 := by
  apply BitVec.eq_of_getLsbD_eq; intro j hj; interval_cases j <;> simp [place8]
@[simp] theorem place4_12_and_FFFF0000 (i : Fin 16) : place4 12 i &&& 0xFFFF0000#32 = 0#32 := by revert i; decide
@[simp] theorem place8_8_and_FFFF0000 (b : Byte) : place8 8 b &&& 0xFFFF0000#32 = 0#32 := by
  apply BitVec.eq_of_getLsbD_eq; intro j hj; interval_cases j <;> simp [place8]
@[simp] theorem place8_0_and_FFFF0000 (b : Byte) : place8 0 b &&& 0xFFFF0000#32 = 0#32 := by
  apply BitVec.eq_of_getLsbD_eq; intro j hj; interval_cases j <;> simp [place8]
@[simp] theorem place16_and_FFFF0000 (h : Half) : place16 h &&& 0xFFFF0000#32 = 0#32 := by
  apply BitVec.eq_of_getLsbD_eq; intro j hj; interval_cases j <;> simp [place16]

/-! A field of a word, placed again, is the word's own bits there. -/

theorem place4_faField (w : Word) : place4 20 (faField w) = w &&& 0x00F00000#32 := by
  have h : BitVec.ofNat 32 (faField w).val = (w.extractLsb' 20 4).setWidth 32 := by
    apply BitVec.eq_of_toNat_eq; simp [faField]
  rw [place4, h]
  apply BitVec.eq_of_getLsbD_eq; intro j hj; interval_cases j <;> simp

theorem place4_fbField (w : Word) : place4 16 (fbField w) = w &&& 0x000F0000#32 := by
  have h : BitVec.ofNat 32 (fbField w).val = (w.extractLsb' 16 4).setWidth 32 := by
    apply BitVec.eq_of_toNat_eq; simp [fbField]
  rw [place4, h]
  apply BitVec.eq_of_getLsbD_eq; intro j hj; interval_cases j <;> simp

theorem place4_fcField (w : Word) : place4 12 (fcField w) = w &&& 0x0000F000#32 := by
  have h : BitVec.ofNat 32 (fcField w).val = (w.extractLsb' 12 4).setWidth 32 := by
    apply BitVec.eq_of_toNat_eq; simp [fcField]
  rw [place4, h]
  apply BitVec.eq_of_getLsbD_eq; intro j hj; interval_cases j <;> simp

theorem place8_imm8Field (w : Word) : place8 8 (imm8Field w) = w &&& 0x0000FF00#32 := by
  apply BitVec.eq_of_getLsbD_eq; intro j hj; interval_cases j <;> simp [place8, imm8Field]

theorem place8_n8Field (w : Word) : place8 0 (n8Field w) = w &&& 0x000000FF#32 := by
  apply BitVec.eq_of_getLsbD_eq; intro j hj; interval_cases j <;> simp [place8, n8Field]

theorem place16_imm16Field (w : Word) : place16 (imm16Field w) = w &&& 0x0000FFFF#32 := by
  apply BitVec.eq_of_getLsbD_eq; intro j hj; interval_cases j <;> simp [place16, imm16Field]

/-- Bits of a word under two masks together are its bits under their union. -/
theorem and_or_and (w m n : Word) : (w &&& m) ||| (w &&& n) = w &&& (m ||| n) := by
  apply BitVec.eq_of_getLsbD_eq; intro j hj
  simp only [BitVec.getLsbD_or, BitVec.getLsbD_and]
  cases w.getLsbD j <;> simp

/-! A field from its bits. -/

theorem faField_eq {w : Word} {i : Fin 16} (h : w.extractLsb' 20 4 = BitVec.ofFin i) : faField w = i := by
  unfold faField; rw [h]

theorem fbField_eq {w : Word} {i : Fin 16} (h : w.extractLsb' 16 4 = BitVec.ofFin i) : fbField w = i := by
  unfold fbField; rw [h]

theorem fcField_eq {w : Word} {i : Fin 16} (h : w.extractLsb' 12 4 = BitVec.ofFin i) : fcField w = i := by
  unfold fcField; rw [h]

/-- Reading bits of a disjunction (the library's lemma under the core's name). -/
theorem extract_or (a b : Word) (start len : Nat) :
    (a ||| b).extractLsb' start len = a.extractLsb' start len ||| b.extractLsb' start len := BitVec.extractLsb'_or

theorem or_and (a b m : Word) : (a ||| b) &&& m = (a &&& m) ||| (b &&& m) := by
  apply BitVec.eq_of_getLsbD_eq; intro j hj
  simp only [BitVec.getLsbD_or, BitVec.getLsbD_and]
  cases m.getLsbD j <;> simp

/-- The decoder on a word whose opcode names a row and whose reserved bits are clear. -/
theorem decode_of_row {w : Word} {row : Row} (hr : rowOf (opField w) = some row) (hm : w &&& row.mask = row.pattern)
    (hw : (row.build w).wf = true) : decode w = .ok (row.build w) := by
  simp [decode, hr, hm, hw]

/-- What a successful decoding says of the word. -/
theorem decode_eq_ok {w : Word} {i : Instr} (h : decode w = .ok i) :
    ∃ row, rowOf (opField w) = some row ∧ w &&& row.mask = row.pattern ∧ (row.build w).wf = true ∧ i = row.build w := by
  unfold decode at h
  cases hr : rowOf (opField w) with
  | none => rw [hr] at h; cases h
  | some row =>
    rw [hr] at h
    by_cases hm : w &&& row.mask = row.pattern
    · by_cases hw : (row.build w).wf = true
      · simp only [hm, hw, if_true] at h
        cases h
        exact ⟨row, rfl, hm, hw, rfl⟩
      · simp [hm, hw] at h
    · simp [hm] at h

end Sys2Proof
end

