-- ==== Sys2Proof/Laws/State.lean ====
section
/-!
SUPPORT. What each named update leaves in each field, one lemma per field and update, true by definition.
-/

namespace Sys2Proof.Machine

@[simp] theorem State.setReg_r (s : State) (i : Fin 16) (v : Byte) : (s.setReg i v).r = s.r.set i v := rfl
@[simp] theorem State.setReg_c (s : State) (i : Fin 16) (v : Byte) : (s.setReg i v).c = s.c := rfl
@[simp] theorem State.setReg_secv (s : State) (i : Fin 16) (v : Byte) : (s.setReg i v).secv = s.secv := rfl
@[simp] theorem State.setReg_sec (s : State) (i : Fin 16) (v : Byte) : (s.setReg i v).sec = s.sec := rfl
@[simp] theorem State.setReg_shv (s : State) (i : Fin 16) (v : Byte) : (s.setReg i v).shv = s.shv := rfl
@[simp] theorem State.setReg_slots (s : State) (i : Fin 16) (v : Byte) : (s.setReg i v).slots = s.slots := rfl
@[simp] theorem State.setReg_last (s : State) (i : Fin 16) (v : Byte) : (s.setReg i v).last = s.last := rfl
@[simp] theorem State.setReg_fltmask (s : State) (i : Fin 16) (v : Byte) : (s.setReg i v).fltmask = s.fltmask := rfl
@[simp] theorem State.setReg_lmax (s : State) (i : Fin 16) (v : Byte) : (s.setReg i v).lmax = s.lmax := rfl
@[simp] theorem State.setReg_host (s : State) (i : Fin 16) (v : Byte) : (s.setReg i v).host = s.host := rfl
@[simp] theorem State.setReg_rnd (s : State) (i : Fin 16) (v : Byte) : (s.setReg i v).rnd = s.rnd := rfl
@[simp] theorem State.setReg_held (s : State) (i : Fin 16) (v : Byte) : (s.setReg i v).held = s.held := rfl
@[simp] theorem State.setReg_rsps (s : State) (i : Fin 16) (v : Byte) : (s.setReg i v).rsps = s.rsps := rfl

@[simp] theorem State.setCoef_r (s : State) (k : Fin 16) (v : Byte) : (s.setCoef k v).r = s.r := rfl
@[simp] theorem State.setCoef_c (s : State) (k : Fin 16) (v : Byte) : (s.setCoef k v).c = s.c.set k v := rfl
@[simp] theorem State.setCoef_secv (s : State) (k : Fin 16) (v : Byte) : (s.setCoef k v).secv = s.secv := rfl
@[simp] theorem State.setCoef_sec (s : State) (k : Fin 16) (v : Byte) : (s.setCoef k v).sec = s.sec := rfl
@[simp] theorem State.setCoef_shv (s : State) (k : Fin 16) (v : Byte) : (s.setCoef k v).shv = s.shv := rfl
@[simp] theorem State.setCoef_slots (s : State) (k : Fin 16) (v : Byte) : (s.setCoef k v).slots = s.slots := rfl
@[simp] theorem State.setCoef_last (s : State) (k : Fin 16) (v : Byte) : (s.setCoef k v).last = s.last := rfl
@[simp] theorem State.setCoef_fltmask (s : State) (k : Fin 16) (v : Byte) : (s.setCoef k v).fltmask = s.fltmask := rfl
@[simp] theorem State.setCoef_lmax (s : State) (k : Fin 16) (v : Byte) : (s.setCoef k v).lmax = s.lmax := rfl
@[simp] theorem State.setCoef_host (s : State) (k : Fin 16) (v : Byte) : (s.setCoef k v).host = s.host := rfl
@[simp] theorem State.setCoef_rnd (s : State) (k : Fin 16) (v : Byte) : (s.setCoef k v).rnd = s.rnd := rfl
@[simp] theorem State.setCoef_held (s : State) (k : Fin 16) (v : Byte) : (s.setCoef k v).held = s.held := rfl
@[simp] theorem State.setCoef_rsps (s : State) (k : Fin 16) (v : Byte) : (s.setCoef k v).rsps = s.rsps := rfl

@[simp] theorem State.openSlot_r (s : State) (x : Byte) : (s.openSlot x).r = s.r := rfl
@[simp] theorem State.openSlot_c (s : State) (x : Byte) : (s.openSlot x).c = s.c := rfl
@[simp] theorem State.openSlot_secv (s : State) (x : Byte) : (s.openSlot x).secv = s.secv := rfl
@[simp] theorem State.openSlot_sec (s : State) (x : Byte) : (s.openSlot x).sec = s.sec := rfl
@[simp] theorem State.openSlot_shv (s : State) (x : Byte) : (s.openSlot x).shv = s.shv := rfl
@[simp] theorem State.openSlot_slots (s : State) (x : Byte) : (s.openSlot x).slots = s.slots ++ [⟨x, []⟩] := rfl
@[simp] theorem State.openSlot_last (s : State) (x : Byte) : (s.openSlot x).last = s.last := rfl
@[simp] theorem State.openSlot_fltmask (s : State) (x : Byte) : (s.openSlot x).fltmask = s.fltmask := rfl
@[simp] theorem State.openSlot_lmax (s : State) (x : Byte) : (s.openSlot x).lmax = s.lmax := rfl
@[simp] theorem State.openSlot_host (s : State) (x : Byte) : (s.openSlot x).host = s.host := rfl
@[simp] theorem State.openSlot_rnd (s : State) (x : Byte) : (s.openSlot x).rnd = s.rnd := rfl
@[simp] theorem State.openSlot_held (s : State) (x : Byte) : (s.openSlot x).held = s.held := rfl
@[simp] theorem State.openSlot_rsps (s : State) (x : Byte) : (s.openSlot x).rsps = s.rsps := rfl

@[simp] theorem State.succeed_r (s : State) (v : Half) : (s.succeed v).r = s.r := rfl
@[simp] theorem State.succeed_c (s : State) (v : Half) : (s.succeed v).c = s.c := rfl
@[simp] theorem State.succeed_secv (s : State) (v : Half) : (s.succeed v).secv = s.secv := rfl
@[simp] theorem State.succeed_sec (s : State) (v : Half) : (s.succeed v).sec = s.sec := rfl
@[simp] theorem State.succeed_shv (s : State) (v : Half) : (s.succeed v).shv = s.shv := rfl
@[simp] theorem State.succeed_slots (s : State) (v : Half) : (s.succeed v).slots = s.slots := rfl
@[simp] theorem State.succeed_last (s : State) (v : Half) : (s.succeed v).last = 0x00#8 := rfl
@[simp] theorem State.succeed_fltmask (s : State) (v : Half) : (s.succeed v).fltmask = s.fltmask := rfl
@[simp] theorem State.succeed_lmax (s : State) (v : Half) : (s.succeed v).lmax = s.lmax := rfl
@[simp] theorem State.succeed_host (s : State) (v : Half) : (s.succeed v).host = s.host := rfl
@[simp] theorem State.succeed_rnd (s : State) (v : Half) : (s.succeed v).rnd = s.rnd := rfl
@[simp] theorem State.succeed_held (s : State) (v : Half) : (s.succeed v).held = s.held := rfl
@[simp] theorem State.succeed_rsps (s : State) (v : Half) : (s.succeed v).rsps = s.rsps ++ [okResponse v] := rfl

@[simp] theorem State.raiseFault_r (s : State) (f : FaultCode) : (s.raiseFault f).r = s.r := rfl
@[simp] theorem State.raiseFault_c (s : State) (f : FaultCode) : (s.raiseFault f).c = s.c := rfl
@[simp] theorem State.raiseFault_secv (s : State) (f : FaultCode) : (s.raiseFault f).secv = s.secv := rfl
@[simp] theorem State.raiseFault_sec (s : State) (f : FaultCode) : (s.raiseFault f).sec = s.sec := rfl
@[simp] theorem State.raiseFault_shv (s : State) (f : FaultCode) : (s.raiseFault f).shv = s.shv := rfl
@[simp] theorem State.raiseFault_slots (s : State) (f : FaultCode) : (s.raiseFault f).slots = s.slots := rfl
@[simp] theorem State.raiseFault_last (s : State) (f : FaultCode) : (s.raiseFault f).last = f.code := rfl
@[simp] theorem State.raiseFault_fltmask (s : State) (f : FaultCode) : (s.raiseFault f).fltmask = s.fltmask ||| f.bit := rfl
@[simp] theorem State.raiseFault_lmax (s : State) (f : FaultCode) : (s.raiseFault f).lmax = s.lmax := rfl
@[simp] theorem State.raiseFault_host (s : State) (f : FaultCode) : (s.raiseFault f).host = s.host := rfl
@[simp] theorem State.raiseFault_rnd (s : State) (f : FaultCode) : (s.raiseFault f).rnd = s.rnd := rfl
@[simp] theorem State.raiseFault_held (s : State) (f : FaultCode) : (s.raiseFault f).held = s.held := rfl
@[simp] theorem State.raiseFault_rsps (s : State) (f : FaultCode) : (s.raiseFault f).rsps = s.rsps ++ [faultResponse f] := rfl

@[simp] theorem State.hold_r (s : State) (i : Instr) : (s.hold i).r = s.r := rfl
@[simp] theorem State.hold_c (s : State) (i : Instr) : (s.hold i).c = s.c := rfl
@[simp] theorem State.hold_secv (s : State) (i : Instr) : (s.hold i).secv = s.secv := rfl
@[simp] theorem State.hold_sec (s : State) (i : Instr) : (s.hold i).sec = s.sec := rfl
@[simp] theorem State.hold_shv (s : State) (i : Instr) : (s.hold i).shv = s.shv := rfl
@[simp] theorem State.hold_slots (s : State) (i : Instr) : (s.hold i).slots = s.slots := rfl
@[simp] theorem State.hold_last (s : State) (i : Instr) : (s.hold i).last = s.last := rfl
@[simp] theorem State.hold_fltmask (s : State) (i : Instr) : (s.hold i).fltmask = s.fltmask := rfl
@[simp] theorem State.hold_lmax (s : State) (i : Instr) : (s.hold i).lmax = s.lmax := rfl
@[simp] theorem State.hold_host (s : State) (i : Instr) : (s.hold i).host = s.host := rfl
@[simp] theorem State.hold_rnd (s : State) (i : Instr) : (s.hold i).rnd = s.rnd := rfl
@[simp] theorem State.hold_held (s : State) (i : Instr) : (s.hold i).held = some i := rfl
@[simp] theorem State.hold_rsps (s : State) (i : Instr) : (s.hold i).rsps = s.rsps := rfl

@[simp] theorem State.finishReg_r (s : State) (rd : Fin 16) (v : Byte) : (s.finishReg rd v).r = s.r.set rd v := rfl
@[simp] theorem State.finishReg_c (s : State) (rd : Fin 16) (v : Byte) : (s.finishReg rd v).c = s.c := rfl
@[simp] theorem State.finishReg_secv (s : State) (rd : Fin 16) (v : Byte) : (s.finishReg rd v).secv = s.secv := rfl
@[simp] theorem State.finishReg_sec (s : State) (rd : Fin 16) (v : Byte) : (s.finishReg rd v).sec = s.sec := rfl
@[simp] theorem State.finishReg_shv (s : State) (rd : Fin 16) (v : Byte) : (s.finishReg rd v).shv = s.shv := rfl
@[simp] theorem State.finishReg_slots (s : State) (rd : Fin 16) (v : Byte) : (s.finishReg rd v).slots = s.slots := rfl
@[simp] theorem State.finishReg_last (s : State) (rd : Fin 16) (v : Byte) : (s.finishReg rd v).last = 0x00#8 := rfl
@[simp] theorem State.finishReg_fltmask (s : State) (rd : Fin 16) (v : Byte) : (s.finishReg rd v).fltmask = s.fltmask := rfl
@[simp] theorem State.finishReg_lmax (s : State) (rd : Fin 16) (v : Byte) : (s.finishReg rd v).lmax = s.lmax := rfl
@[simp] theorem State.finishReg_host (s : State) (rd : Fin 16) (v : Byte) : (s.finishReg rd v).host = s.host := rfl
@[simp] theorem State.finishReg_rnd (s : State) (rd : Fin 16) (v : Byte) : (s.finishReg rd v).rnd = s.rnd := rfl
@[simp] theorem State.finishReg_held (s : State) (rd : Fin 16) (v : Byte) : (s.finishReg rd v).held = s.held := rfl
@[simp] theorem State.finishReg_rsps (s : State) (rd : Fin 16) (v : Byte) : (s.finishReg rd v).rsps = s.rsps ++ [okResponse (zext16 v)] := rfl

@[simp] theorem State.clear_r (s : State) : s.clear.r = Vector.replicate 16 0x00#8 := rfl
@[simp] theorem State.clear_c (s : State) : s.clear.c = Vector.replicate 16 0x00#8 := rfl
@[simp] theorem State.clear_secv (s : State) : s.clear.secv = false := rfl
@[simp] theorem State.clear_sec (s : State) : s.clear.sec = [] := rfl
@[simp] theorem State.clear_shv (s : State) : s.clear.shv = false := rfl
@[simp] theorem State.clear_slots (s : State) : s.clear.slots = [] := rfl
@[simp] theorem State.clear_last (s : State) : s.clear.last = 0x00#8 := rfl
@[simp] theorem State.clear_fltmask (s : State) : s.clear.fltmask = 0x0000#16 := rfl
@[simp] theorem State.clear_lmax (s : State) : s.clear.lmax = s.lmax := rfl
@[simp] theorem State.clear_host (s : State) : s.clear.host = s.host := rfl
@[simp] theorem State.clear_rnd (s : State) : s.clear.rnd = s.rnd := rfl
@[simp] theorem State.clear_held (s : State) : s.clear.held = s.held := rfl
@[simp] theorem State.clear_rsps (s : State) : s.clear.rsps = s.rsps := rfl

@[simp] theorem State.hardReset_r (s : State) (lost : Nat) : (s.hardReset lost).r = Vector.replicate 16 0x00#8 := rfl
@[simp] theorem State.hardReset_c (s : State) (lost : Nat) : (s.hardReset lost).c = Vector.replicate 16 0x00#8 := rfl
@[simp] theorem State.hardReset_secv (s : State) (lost : Nat) : (s.hardReset lost).secv = false := rfl
@[simp] theorem State.hardReset_sec (s : State) (lost : Nat) : (s.hardReset lost).sec = [] := rfl
@[simp] theorem State.hardReset_shv (s : State) (lost : Nat) : (s.hardReset lost).shv = false := rfl
@[simp] theorem State.hardReset_slots (s : State) (lost : Nat) : (s.hardReset lost).slots = [] := rfl
@[simp] theorem State.hardReset_last (s : State) (lost : Nat) : (s.hardReset lost).last = 0x00#8 := rfl
@[simp] theorem State.hardReset_fltmask (s : State) (lost : Nat) : (s.hardReset lost).fltmask = 0x0000#16 := rfl
@[simp] theorem State.hardReset_lmax (s : State) (lost : Nat) : (s.hardReset lost).lmax = s.lmax := rfl
@[simp] theorem State.hardReset_host (s : State) (lost : Nat) : (s.hardReset lost).host = s.host := rfl
@[simp] theorem State.hardReset_rnd (s : State) (lost : Nat) : (s.hardReset lost).rnd = s.rnd.drop lost := rfl
@[simp] theorem State.hardReset_held (s : State) (lost : Nat) : (s.hardReset lost).held = none := rfl
@[simp] theorem State.hardReset_rsps (s : State) (lost : Nat) : (s.hardReset lost).rsps = s.rsps := rfl

@[simp] theorem State.splitWith_r (s : State) (k n : Nat) (ds : List Byte) : (s.splitWith k n ds).r = s.r := rfl
@[simp] theorem State.splitWith_c (s : State) (k n : Nat) (ds : List Byte) : (s.splitWith k n ds).c = (splitLoop k s.sec ds s.c (splitSlots n)).1 := rfl
@[simp] theorem State.splitWith_secv (s : State) (k n : Nat) (ds : List Byte) : (s.splitWith k n ds).secv = s.secv := rfl
@[simp] theorem State.splitWith_sec (s : State) (k n : Nat) (ds : List Byte) : (s.splitWith k n ds).sec = s.sec := rfl
@[simp] theorem State.splitWith_shv (s : State) (k n : Nat) (ds : List Byte) : (s.splitWith k n ds).shv = true := rfl
@[simp] theorem State.splitWith_slots (s : State) (k n : Nat) (ds : List Byte) : (s.splitWith k n ds).slots = (splitLoop k s.sec ds s.c (splitSlots n)).2 := rfl
@[simp] theorem State.splitWith_last (s : State) (k n : Nat) (ds : List Byte) : (s.splitWith k n ds).last = s.last := rfl
@[simp] theorem State.splitWith_fltmask (s : State) (k n : Nat) (ds : List Byte) : (s.splitWith k n ds).fltmask = s.fltmask := rfl
@[simp] theorem State.splitWith_lmax (s : State) (k n : Nat) (ds : List Byte) : (s.splitWith k n ds).lmax = s.lmax := rfl
@[simp] theorem State.splitWith_host (s : State) (k n : Nat) (ds : List Byte) : (s.splitWith k n ds).host = s.host := rfl
@[simp] theorem State.splitWith_rnd (s : State) (k n : Nat) (ds : List Byte) : (s.splitWith k n ds).rnd = s.rnd := rfl
@[simp] theorem State.splitWith_held (s : State) (k n : Nat) (ds : List Byte) : (s.splitWith k n ds).held = s.held := rfl
@[simp] theorem State.splitWith_rsps (s : State) (k n : Nat) (ds : List Byte) : (s.splitWith k n ds).rsps = s.rsps := rfl

@[simp] theorem State.afterOk_r (s : State) (v : Half) : (s.afterOk v).r = s.r := rfl
@[simp] theorem State.afterOk_c (s : State) (v : Half) : (s.afterOk v).c = s.c := rfl
@[simp] theorem State.afterOk_secv (s : State) (v : Half) : (s.afterOk v).secv = s.secv := rfl
@[simp] theorem State.afterOk_sec (s : State) (v : Half) : (s.afterOk v).sec = s.sec := rfl
@[simp] theorem State.afterOk_shv (s : State) (v : Half) : (s.afterOk v).shv = s.shv := rfl
@[simp] theorem State.afterOk_slots (s : State) (v : Half) : (s.afterOk v).slots = s.slots := rfl
@[simp] theorem State.afterOk_last (s : State) (v : Half) : (s.afterOk v).last = 0x00#8 := rfl
@[simp] theorem State.afterOk_fltmask (s : State) (v : Half) : (s.afterOk v).fltmask = s.fltmask := rfl
@[simp] theorem State.afterOk_lmax (s : State) (v : Half) : (s.afterOk v).lmax = s.lmax := rfl
@[simp] theorem State.afterOk_host (s : State) (v : Half) : (s.afterOk v).host = s.host := rfl
@[simp] theorem State.afterOk_rnd (s : State) (v : Half) : (s.afterOk v).rnd = s.rnd := rfl
@[simp] theorem State.afterOk_held (s : State) (v : Half) : (s.afterOk v).held = s.held := rfl
@[simp] theorem State.afterOk_rsps (s : State) (v : Half) : (s.afterOk v).rsps = s.rsps ++ [v.setWidth 32] := rfl

@[simp] theorem State.afterFault_r (s : State) (c : Byte) : (s.afterFault c).r = s.r := rfl
@[simp] theorem State.afterFault_c (s : State) (c : Byte) : (s.afterFault c).c = s.c := rfl
@[simp] theorem State.afterFault_secv (s : State) (c : Byte) : (s.afterFault c).secv = s.secv := rfl
@[simp] theorem State.afterFault_sec (s : State) (c : Byte) : (s.afterFault c).sec = s.sec := rfl
@[simp] theorem State.afterFault_shv (s : State) (c : Byte) : (s.afterFault c).shv = s.shv := rfl
@[simp] theorem State.afterFault_slots (s : State) (c : Byte) : (s.afterFault c).slots = s.slots := rfl
@[simp] theorem State.afterFault_last (s : State) (c : Byte) : (s.afterFault c).last = c := rfl
@[simp] theorem State.afterFault_fltmask (s : State) (c : Byte) : (s.afterFault c).fltmask = s.fltmask ||| (1#16 <<< c.toNat) := rfl
@[simp] theorem State.afterFault_lmax (s : State) (c : Byte) : (s.afterFault c).lmax = s.lmax := rfl
@[simp] theorem State.afterFault_host (s : State) (c : Byte) : (s.afterFault c).host = s.host := rfl
@[simp] theorem State.afterFault_rnd (s : State) (c : Byte) : (s.afterFault c).rnd = s.rnd := rfl
@[simp] theorem State.afterFault_held (s : State) (c : Byte) : (s.afterFault c).held = s.held := rfl
@[simp] theorem State.afterFault_rsps (s : State) (c : Byte) : (s.afterFault c).rsps = s.rsps ++ [c.setWidth 32 <<< 24] := rfl

@[simp] theorem State.append_sec_r (s : State) (v : Byte) : (s.append .sec v).r = s.r := rfl
@[simp] theorem State.append_sec_c (s : State) (v : Byte) : (s.append .sec v).c = s.c := rfl
@[simp] theorem State.append_sec_secv (s : State) (v : Byte) : (s.append .sec v).secv = s.secv := rfl
@[simp] theorem State.append_sec_sec (s : State) (v : Byte) : (s.append .sec v).sec = s.sec ++ [v] := rfl
@[simp] theorem State.append_sec_shv (s : State) (v : Byte) : (s.append .sec v).shv = s.shv := rfl
@[simp] theorem State.append_sec_slots (s : State) (v : Byte) : (s.append .sec v).slots = s.slots := rfl
@[simp] theorem State.append_sec_last (s : State) (v : Byte) : (s.append .sec v).last = s.last := rfl
@[simp] theorem State.append_sec_fltmask (s : State) (v : Byte) : (s.append .sec v).fltmask = s.fltmask := rfl
@[simp] theorem State.append_sec_lmax (s : State) (v : Byte) : (s.append .sec v).lmax = s.lmax := rfl
@[simp] theorem State.append_sec_host (s : State) (v : Byte) : (s.append .sec v).host = s.host := rfl
@[simp] theorem State.append_sec_rnd (s : State) (v : Byte) : (s.append .sec v).rnd = s.rnd := rfl
@[simp] theorem State.append_sec_held (s : State) (v : Byte) : (s.append .sec v).held = s.held := rfl
@[simp] theorem State.append_sec_rsps (s : State) (v : Byte) : (s.append .sec v).rsps = s.rsps := rfl

@[simp] theorem State.append_sh_r (s : State) (j : Nat) (v : Byte) : (s.append (.sh j) v).r = s.r := rfl
@[simp] theorem State.append_sh_c (s : State) (j : Nat) (v : Byte) : (s.append (.sh j) v).c = s.c := rfl
@[simp] theorem State.append_sh_secv (s : State) (j : Nat) (v : Byte) : (s.append (.sh j) v).secv = s.secv := rfl
@[simp] theorem State.append_sh_sec (s : State) (j : Nat) (v : Byte) : (s.append (.sh j) v).sec = s.sec := rfl
@[simp] theorem State.append_sh_shv (s : State) (j : Nat) (v : Byte) : (s.append (.sh j) v).shv = s.shv := rfl
@[simp] theorem State.append_sh_slots (s : State) (j : Nat) (v : Byte) : (s.append (.sh j) v).slots = s.slots.modify j (fun sl => sl.push v) := rfl
@[simp] theorem State.append_sh_last (s : State) (j : Nat) (v : Byte) : (s.append (.sh j) v).last = s.last := rfl
@[simp] theorem State.append_sh_fltmask (s : State) (j : Nat) (v : Byte) : (s.append (.sh j) v).fltmask = s.fltmask := rfl
@[simp] theorem State.append_sh_lmax (s : State) (j : Nat) (v : Byte) : (s.append (.sh j) v).lmax = s.lmax := rfl
@[simp] theorem State.append_sh_host (s : State) (j : Nat) (v : Byte) : (s.append (.sh j) v).host = s.host := rfl
@[simp] theorem State.append_sh_rnd (s : State) (j : Nat) (v : Byte) : (s.append (.sh j) v).rnd = s.rnd := rfl
@[simp] theorem State.append_sh_held (s : State) (j : Nat) (v : Byte) : (s.append (.sh j) v).held = s.held := rfl
@[simp] theorem State.append_sh_rsps (s : State) (j : Nat) (v : Byte) : (s.append (.sh j) v).rsps = s.rsps := rfl

@[simp] theorem Slot.push_x (sl : Slot) (v : Byte) : (sl.push v).x = sl.x := rfl
@[simp] theorem Slot.push_vals (sl : Slot) (v : Byte) : (sl.push v).vals = sl.vals ++ [v] := rfl

end Sys2Proof.Machine
end

