-- ==== Sys2Proof/Laws/Ops.lean ====
section
/-!
SUPPORT. The shared operations: for each, once, everything it can do. Later proofs cite these and do not unfold the operations.
-/

namespace Sys2Proof.Machine

/-! Response words. -/

theorem okResponse_eq (v : Half) : okResponse v = v.setWidth 32 := by
  apply BitVec.eq_of_toNat_eq
  simp only [okResponse, responseWord, BitVec.toNat_append, BitVec.toNat_setWidth, BitVec.toNat_ofNat]
  have := v.isLt
  simp
  omega

theorem faultResponse_eq (f : FaultCode) : faultResponse f = f.code.setWidth 32 <<< 24 := by
  cases f <;> decide

@[simp] theorem responseCode_responseWord (code : Byte) (v : Half) : responseCode (responseWord code v) = code := by
  apply BitVec.eq_of_toNat_eq
  simp only [responseCode, responseWord, BitVec.extractLsb'_toNat, BitVec.toNat_append, Nat.shiftRight_eq_div_pow,
    BitVec.toNat_ofNat]
  have := v.isLt
  have := code.isLt
  rw [← Nat.shiftLeft_add_eq_or_of_lt (by simpa using by omega), ← Nat.shiftLeft_add_eq_or_of_lt (by simpa using by omega)]
  simp only [Nat.shiftLeft_eq]
  omega

@[simp] theorem responseValue_responseWord (code : Byte) (v : Half) : responseValue (responseWord code v) = v := by
  apply BitVec.eq_of_toNat_eq
  simp only [responseValue, responseWord, BitVec.extractLsb'_toNat, BitVec.toNat_append, Nat.shiftRight_eq_div_pow,
    BitVec.toNat_ofNat]
  have := v.isLt
  have := code.isLt
  rw [← Nat.shiftLeft_add_eq_or_of_lt (by simpa using by omega), ← Nat.shiftLeft_add_eq_or_of_lt (by simpa using by omega)]
  simp only [Nat.shiftLeft_eq]
  omega

/-- A success as the numbers of R32 and R75 give it. -/
theorem State.succeed_eq (s : State) (v : Half) : s.succeed v = s.afterOk v := by
  simp [State.succeed, State.afterOk, okResponse_eq]

/-- A fault as the numbers of R222 give it. -/
theorem State.raiseFault_eq (s : State) (f : FaultCode) : s.raiseFault f = s.afterFault f.code := by
  simp [State.raiseFault, State.afterFault, faultResponse_eq, FaultCode.bit]

theorem FaultCode.code_ne_zero (f : FaultCode) : f.code ≠ 0x00#8 := by cases f <;> decide

theorem FaultCode.code_le (f : FaultCode) : f.code.toNat ≤ 11 := by cases f <;> decide

theorem FaultCode.code_injective {f g : FaultCode} (h : f.code = g.code) : f = g := by
  revert h; cases f <;> cases g <;> decide

/-! Check lists. -/

@[simp] theorem firstFault_nil : firstFault [] = none := rfl

theorem firstFault_cons (b : Bool) (f : FaultCode) (rest : List (Bool × FaultCode)) :
    firstFault ((b, f) :: rest) = if b then some f else firstFault rest := rfl

/-- No fault is reported exactly when no check fails. -/
theorem firstFault_eq_none {checks : List (Bool × FaultCode)} :
    firstFault checks = none ↔ ∀ p ∈ checks, p.1 = false := by
  induction checks with
  | nil => simp
  | cons p rest ih =>
    obtain ⟨b, f⟩ := p
    cases b <;> simp [firstFault_cons, ih]

/-- A reported fault is that of a failing check. -/
theorem firstFault_mem {checks : List (Bool × FaultCode)} {f : FaultCode} (h : firstFault checks = some f) :
    (true, f) ∈ checks := by
  induction checks with
  | nil => simp at h
  | cons p rest ih =>
    obtain ⟨b, g⟩ := p
    cases b
    · simp only [firstFault_cons] at h
      exact List.mem_cons_of_mem _ (ih (by simpa using h))
    · simp only [firstFault_cons, if_true, Option.some.injEq] at h
      simp [h]

/-- What a checked meaning can do: fault with the first failing check, or its work. -/
theorem checked_cases (s : State) (checks : List (Bool × FaultCode)) (work : Out) :
    (∃ f, firstFault checks = some f ∧ checked s checks work = .next (s.raiseFault f)) ∨
    (firstFault checks = none ∧ checked s checks work = work) := by
  unfold checked
  cases firstFault checks with
  | none => exact .inr ⟨rfl, rfl⟩
  | some f => exact .inl ⟨f, rfl, rfl⟩

theorem checked_cons_true (s : State) (f : FaultCode) (rest : List (Bool × FaultCode)) (work : Out) :
    checked s ((true, f) :: rest) work = .next (s.raiseFault f) := rfl

theorem checked_cons_false (s : State) (f : FaultCode) (rest : List (Bool × FaultCode)) (work : Out) :
    checked s ((false, f) :: rest) work = checked s rest work := rfl

theorem checked_nil (s : State) (work : Out) : checked s [] work = work := rfl

/-! Draws. -/

theorem State.draw_of_le {s : State} {n : Nat} (h : n ≤ s.rnd.length) :
    s.draw n = some (s.rnd.take n, { s with rnd := s.rnd.drop n }) := if_pos h

theorem State.draw_of_lt {s : State} {n : Nat} (h : s.rnd.length < n) : s.draw n = none := if_neg (Nat.not_le.2 h)

/-! The next step. -/

/-- With a word presented and no command held, the step runs the command the word is. -/
theorem step_command {s : State} {w : Word} {rest : List HostAct} {i : Instr} (hh : s.host = .command w :: rest)
    (hd : s.held = none) (hw : decode w = .ok i) : step s = exec i { s with host := rest } := by
  simp [step, nextWork, takeWord, hh, hd, hw]

/-- Everything a step can do: run a command (the held one, or the one the next word is), fault an illegal word, reset, or idle. -/
theorem step_cases (s : State) :
    (∃ i, s.held = some i ∧ step s = exec i { s with held := none }) ∨
    (∃ w rest i, s.host = .command w :: rest ∧ s.held = none ∧ decode w = .ok i ∧
      step s = exec i { s with host := rest }) ∨
    (∃ w rest e, s.host = .command w :: rest ∧ s.held = none ∧ decode w = .error e ∧
      step s = .next ({ s with host := rest }.raiseFault .illegalCommand)) ∨
    (∃ lost rest, s.host = .hardReset lost :: rest ∧ step s = .next ({ s with host := rest }.hardReset lost)) ∨
    (s.host = [] ∧ s.held = none ∧ step s = .next s) := by
  unfold step nextWork
  cases hh : s.host with
  | nil =>
    cases hd : s.held with
    | none => exact .inr (.inr (.inr (.inr ⟨rfl, rfl, rfl⟩)))
    | some i => exact .inl ⟨i, rfl, rfl⟩
  | cons a rest =>
    cases a with
    | hardReset lost => exact .inr (.inr (.inr (.inl ⟨lost, rest, rfl, rfl⟩)))
    | command w =>
      cases hd : s.held with
      | some i => exact .inl ⟨i, rfl, rfl⟩
      | none =>
        cases hw : decode w with
        | ok i => exact .inr (.inl ⟨w, rest, i, rfl, rfl, hw, by simp [takeWord, hw]⟩)
        | error e => exact .inr (.inr (.inl ⟨w, rest, e, rfl, rfl, hw, by simp [takeWord, hw]⟩))

/-- A run of any machine takes its first step first. -/
theorem run_succ (M : Host.Core) (n : Nat) (s s' : M.State) (h : M.step s = .next s') : M.run (n + 1) s = M.run n s' := by
  simp [Host.Core.run, h]

theorem core_run_succ {s s' : State} (h : step s = .next s') (n : Nat) : core.run (n + 1) s = core.run n s' :=
  run_succ core n s s' h

/-- `FLTMASK` keeps its clear bits through a fault (10_state.md R33, R39). -/
theorem FaultCode.bit_and_clear (f : FaultCode) : f.bit &&& 0xF001#16 = 0#16 := by cases f <;> decide

theorem fltmask_clear_or {m : Half} (h : m &&& 0xF001#16 = 0#16) (f : FaultCode) : (m ||| f.bit) &&& 0xF001#16 = 0#16 := by
  have hx : (m ||| f.bit) &&& 0xF001#16 = (m &&& 0xF001#16) ||| (f.bit &&& 0xF001#16) := by
    apply BitVec.eq_of_getLsbD_eq
    intro j _
    simp only [BitVec.getLsbD_or, BitVec.getLsbD_and]
    cases BitVec.getLsbD (0xF001#16) j <;> simp
  rw [hx, h, f.bit_and_clear]
  rfl

/-- One more byte in a slot that is not full keeps every slot within the capacity (10_state.md R39). -/
theorem modify_push_le {slots : List Slot} {cap j : Nat} {v : Byte} (h : ∀ sl ∈ slots, sl.vals.length ≤ cap)
    (hj : ∀ sl, slots[j]? = some sl → sl.vals.length ≠ cap) :
    ∀ sl ∈ slots.modify j (fun sl => sl.push v), sl.vals.length ≤ cap := by
  intro sl hsl
  obtain ⟨n, hn, rfl⟩ := List.getElem_of_mem hsl
  simp only [List.length_modify] at hn
  have h1 := h _ (List.getElem_mem hn)
  rw [List.getElem_modify]
  split
  · subst n
    have := hj _ (List.getElem?_eq_getElem hn)
    simp only [Slot.push_vals, List.length_append, List.length_singleton]
    omega
  · exact h1

end Sys2Proof.Machine
end

