-- ==== Sys2Proof/Laws/Exec.lean ====
section
/-!
SUPPORT. Every command in one shape: its checks in order (60_exceptions.md R224), then the hold if the source has not delivered its
draws, then its writes and its response value. `exec_eq` says so of all 30 at once, and the inversion lemma after it is what later
proofs split on.
-/

namespace Sys2Proof.Machine

/-- The checks of a command after decoding, in the order of R224. -/
def checksOf (s : State) : Instr → List (Bool × FaultCode)
  | .gfdiv _ _ rb => [(decide (s.reg rb = 0x00#8), .divideByZero)]
  | .gfinv _ ra => [(decide (s.reg ra = 0x00#8), .divideByZero)]
  | .secpush _ | .secpushi _ => [(!s.secv, .nullInput), (decide (s.seclen = s.lmax), .capacity)]
  | .secrd _ addr => [(!s.secv, .nullInput), (decide (s.seclen ≤ addr.toNat), .addrRange)]
  | .shopen _ | .shopeni _ => [(!s.shv, .nullInput), (decide (s.cnt = 16), .capacity)]
  | .shpush j _ | .shpushi j _ =>
    [(!s.shv, .nullInput), (decide (s.cnt ≤ j.val), .addrRange), (decide (s.slen j.val = s.lmax), .capacity)]
  | .shrd _ j addr =>
    [(!s.shv, .nullInput), (decide (s.cnt ≤ j.val), .addrRange), (decide (s.slen j.val ≤ addr.toNat), .addrRange)]
  | .shx _ j => [(!s.shv, .nullInput), (decide (s.cnt ≤ j.val), .addrRange)]
  | .eval _ ra k =>
    [(decide (k.toNat = 0 ∨ 16 < k.toNat), .invalidThreshold), (decide (s.reg ra = 0x00#8), .reservedX)]
  | .split k n =>
    [(!s.secv, .nullInput), (decide (s.seclen = 0), .emptyInput), (decide (k.toNat = 0), .invalidThreshold),
     (decide (n.toNat < k.toNat), .invalidThreshold), (decide (16 < n.toNat), .tooManyShares)]
  | .lbasis rn rd i =>
    [(decide (rn = rd), .illegalCommand), (!s.shv, .nullInput), (decide (s.cnt = 0), .emptyInput),
     (decide (s.cnt ≤ i.val), .addrRange)] ++ s.xchecks
  | .interp _ pos =>
    [(!s.shv, .nullInput), (decide (s.cnt = 0), .emptyInput),
     (s.slots.any (fun sl => decide (sl.vals.length ≤ pos.toNat)), .addrRange)] ++ s.xchecks
  | .recover =>
    [(!s.shv, .nullInput), (decide (s.cnt = 0), .emptyInput),
     (s.slots.any (fun sl => sl.vals.length != s.slen 0), .sizeMismatch)] ++ s.xchecks
  | .rdcsr n => [((s.csr n).isNone, .illegalCommand)]
  | .nop | .gfadd _ _ _ | .gfmul _ _ _ | .gfpow _ _ _ | .ldi _ _ | .mov _ _ | .rdr _ | .ldc _ _ | .ldci _ _ => []
  | .ldcr _ | .secnew | .shnew | .sreset => []

/-- The writes of a command whose checks pass and whose draws are there, and its response value. -/
def effect (s : State) : Instr → State × Half
  | .nop => (s, 0)
  | .gfadd rd ra rb => (s.setReg rd (gadd (s.reg ra) (s.reg rb)), zext16 (gadd (s.reg ra) (s.reg rb)))
  | .gfmul rd ra rb => (s.setReg rd (gmul (s.reg ra) (s.reg rb)), zext16 (gmul (s.reg ra) (s.reg rb)))
  | .gfdiv rd ra rb => (s.setReg rd (gdiv (s.reg ra) (s.reg rb)), zext16 (gdiv (s.reg ra) (s.reg rb)))
  | .gfinv rd ra => (s.setReg rd (ginv (s.reg ra)), zext16 (ginv (s.reg ra)))
  | .gfpow rd ra rb => (s.setReg rd (gpow (s.reg ra) (s.reg rb)), zext16 (gpow (s.reg ra) (s.reg rb)))
  | .ldi rd imm => (s.setReg rd imm, zext16 imm)
  | .mov rd ra => (s.setReg rd (s.reg ra), zext16 (s.reg ra))
  | .rdr ra => (s, zext16 (s.reg ra))
  | .ldc k ra => (s.setCoef k (s.reg ra), 0)
  | .ldci k imm => (s.setCoef k imm, 0)
  | .ldcr k => ({ s with rnd := s.rnd.drop 1 }.setCoef k ((s.rnd.take 1).headD 0), 0)
  | .secnew => ({ s with secv := true, sec := [] }, 0)
  | .secpush ra => (s.append .sec (s.reg ra), count16 (s.seclen + 1))
  | .secpushi imm => (s.append .sec imm, count16 (s.seclen + 1))
  | .secrd rd addr =>
    (s.setReg rd ((s.memRead .sec addr.toNat).getD 0), zext16 ((s.memRead .sec addr.toNat).getD 0))
  | .shnew => ({ s with shv := true, slots := [] }, 0)
  | .shopen ra => (s.openSlot (s.reg ra), count16 s.cnt)
  | .shopeni imm => (s.openSlot imm, count16 s.cnt)
  | .shpush j ra => (s.append (.sh j.val) (s.reg ra), count16 (s.slen j.val + 1))
  | .shpushi j imm => (s.append (.sh j.val) imm, count16 (s.slen j.val + 1))
  | .shrd rd j addr =>
    (s.setReg rd ((s.memRead (.sh j.val) addr.toNat).getD 0), zext16 ((s.memRead (.sh j.val) addr.toNat).getD 0))
  | .shx rd j => (s.setReg rd (s.xs.getD j.val 0), zext16 (s.xs.getD j.val 0))
  | .eval rd ra k => (s.setReg rd (horner s.c k.toNat (s.reg ra)), zext16 (horner s.c k.toNat (s.reg ra)))
  | .split k n =>
    ({ s with rnd := s.rnd.drop (s.splitDraws k.toNat) }.splitWith k.toNat n.toNat
      (s.rnd.take (s.splitDraws k.toNat)), zext16 n)
  | .lbasis rn rd i =>
    ((s.setReg rn (num s.xs i)).setReg rd (den s.xs i), num s.xs i ++ den s.xs i)
  | .interp rd pos => (s.setReg rd (s.interp pos.toNat), zext16 (s.interp pos.toNat))
  | .recover => ({ s with secv := true, sec := s.recovered }, count16 (s.slen 0))
  | .rdcsr n => (s, (s.csr n).getD 0)
  | .sreset => (s.clear, 0)

/-- A command whose checks have passed: it waits for its draws or does its writes. -/
def finish (i : Instr) (s : State) : Out :=
  if s.rnd.length < drawsOf s i then .next (s.hold i) else .next ((effect s i).1.succeed (effect s i).2)

theorem finish_of_lt {i : Instr} {s : State} (h : s.rnd.length < drawsOf s i) : finish i s = .next (s.hold i) := if_pos h

theorem finish_of_le {i : Instr} {s : State} (h : drawsOf s i ≤ s.rnd.length) :
    finish i s = .next ((effect s i).1.succeed (effect s i).2) := if_neg (Nat.not_lt.2 h)

/-- The shape of every command. -/
theorem exec_eq (i : Instr) (s : State) : exec i s = checked s (checksOf s i) (finish i s) := by
  cases i with
  | ldcr k =>
    show execLdcr k s = finish (.ldcr k) s
    unfold execLdcr
    by_cases h : 1 ≤ s.rnd.length
    · rw [State.draw_of_le h, finish_of_le (by exact h)]; rfl
    · rw [State.draw_of_lt (Nat.lt_of_not_le h), finish_of_lt (by exact Nat.lt_of_not_le h)]
  | split k n =>
    show execSplit k n s = checked s (checksOf s (.split k n)) (finish (.split k n) s)
    unfold execSplit checksOf
    by_cases h : s.splitDraws k.toNat ≤ s.rnd.length
    · rw [State.draw_of_le h, finish_of_le (by exact h)]; rfl
    · rw [State.draw_of_lt (Nat.lt_of_not_le h), finish_of_lt (by exact Nat.lt_of_not_le h)]; rfl
  | rdcsr n =>
    simp only [exec, execRdcsr, checksOf, finish, drawsOf, effect, Nat.not_lt_zero, if_false]
    cases s.csr n with
    | none => rfl
    | some v => rfl
  | _ => rfl

/-- Everything a command can do: fault with its first failing check, hold for want of draws, or do its writes and answer. -/
theorem exec_cases (i : Instr) (s : State) :
    (∃ f, firstFault (checksOf s i) = some f ∧ exec i s = .next (s.raiseFault f)) ∨
    (firstFault (checksOf s i) = none ∧ s.rnd.length < drawsOf s i ∧ exec i s = .next (s.hold i)) ∨
    (firstFault (checksOf s i) = none ∧ drawsOf s i ≤ s.rnd.length ∧
      exec i s = .next ((effect s i).1.succeed (effect s i).2)) := by
  rw [exec_eq]
  rcases checked_cases s (checksOf s i) (finish i s) with ⟨f, hf, he⟩ | ⟨hn, he⟩
  · exact .inl ⟨f, hf, he⟩
  · rw [he]
    by_cases h : s.rnd.length < drawsOf s i
    · exact .inr (.inl ⟨hn, h, if_pos h⟩)
    · exact .inr (.inr ⟨hn, Nat.le_of_not_lt h, if_neg h⟩)

/-- The same read from an answer: which of the three forms the next state has. -/
theorem exec_next_cases {i : Instr} {s t : State} (h : exec i s = .next t) :
    (∃ f, firstFault (checksOf s i) = some f ∧ t = s.raiseFault f) ∨
    (firstFault (checksOf s i) = none ∧ s.rnd.length < drawsOf s i ∧ t = s.hold i) ∨
    (firstFault (checksOf s i) = none ∧ drawsOf s i ≤ s.rnd.length ∧ t = (effect s i).1.succeed (effect s i).2) := by
  rcases exec_cases i s with ⟨f, hf, he⟩ | ⟨hn, hl, he⟩ | ⟨hn, hl, he⟩ <;> rw [h] at he <;> cases he
  · exact .inl ⟨f, hf, rfl⟩
  · exact .inr (.inl ⟨hn, hl, rfl⟩)
  · exact .inr (.inr ⟨hn, hl, rfl⟩)

/-- A command whose checks pass and whose draws are there answers with its writes. -/
theorem exec_of_pass {i : Instr} {s : State} (hc : firstFault (checksOf s i) = none) (hd : drawsOf s i ≤ s.rnd.length) :
    exec i s = .next ((effect s i).1.succeed (effect s i).2) := by
  rw [exec_eq, checked, hc, finish, if_neg (Nat.not_lt.2 hd)]

/-- Only two commands draw. -/
theorem draws_of_hold {i : Instr} {s : State} (h : s.rnd.length < drawsOf s i) :
    (∃ k, i = .ldcr k) ∨ (∃ k n, i = .split k n) := by
  cases i <;> simp [drawsOf] at h ⊢

/-- No write of a command touches the record of faults, the responses, the host's list, the parameter or the held command; the
record is cleared by SRESET alone. -/
theorem effect_frame (s : State) (i : Instr) :
    (effect s i).1.rsps = s.rsps ∧ (effect s i).1.host = s.host ∧ (effect s i).1.lmax = s.lmax ∧
    (effect s i).1.held = s.held ∧ (effect s i).1.rnd = s.rnd.drop (drawsOf s i) ∧
    (i ≠ .sreset → (effect s i).1.fltmask = s.fltmask) := by
  cases i <;> simp [effect, drawsOf, State.splitDraws, State.seclen]

/-- No check looks at the coefficient file, nor does the number of draws (10_state.md R27). -/
theorem checksOf_coefs (i : Instr) (s : State) (cf : Vector Byte 16) : checksOf { s with c := cf } i = checksOf s i := by
  cases i <;> rfl

theorem drawsOf_coefs (i : Instr) (s : State) (cf : Vector Byte 16) : drawsOf { s with c := cf } i = drawsOf s i := by
  cases i <;> rfl

/-- No check looks at the entropy stream, nor does the number of draws (70_reset_and_hazards.md R271). -/
theorem checksOf_rnd (i : Instr) (s : State) (bs : List Byte) : checksOf { s with rnd := bs } i = checksOf s i := by
  cases i <;> rfl

theorem drawsOf_rnd (i : Instr) (s : State) (bs : List Byte) : drawsOf { s with rnd := bs } i = drawsOf s i := by
  cases i <;> rfl

end Sys2Proof.Machine
end

