-- ==== Sys2Proof/Laws/Field.lean ====
section
/-!
SUPPORT. The multiplier is additive in both operands; hence the commutative and associative laws, the unit, the inverse
(40_field_arithmetic.md R104, R105), and the field they make.
-/

namespace Sys2Proof.Machine

/-- A fact checked on the 256 bytes as numbers holds of every byte. -/
theorem byte_forall {p : Byte → Prop} (h : ∀ n : Fin 256, p (BitVec.ofFin n)) (a : Byte) : p a := h a.toFin

/-- `xtime` on numbers below 256, in operations that the kernel evaluates fast. -/
def xtimeNat (a : Nat) : Nat := Nat.xor (Nat.mul 2 a) (Nat.mul (Nat.div a 128) 0x11B)

/-- One pass of `gmul` on numbers below 256, before the passes `f`. -/
def gmulNatPass (f : Nat → Nat → Nat → Nat) (a b p : Nat) : Nat :=
  f (xtimeNat a) (Nat.div b 2) (Nat.xor p (Nat.mul (Nat.mod b 2) a))

/-- `gmul` on numbers below 256. -/
def gmulNat (a b : Nat) : Nat :=
  gmulNatPass (gmulNatPass (gmulNatPass (gmulNatPass (gmulNatPass (gmulNatPass (gmulNatPass (gmulNatPass
    fun _ _ p => p))))))) a b 0

/-- One pass of `ginv` on numbers below 256, before the passes `f`; `s` is squared already. -/
def ginvNatPass (f : Nat → Nat → Nat) (r s : Nat) : Nat := f (gmulNat r s) (gmulNat s s)

/-- `ginv` on numbers below 256. -/
def ginvNat (a : Nat) : Nat :=
  ginvNatPass (ginvNatPass (ginvNatPass (ginvNatPass (ginvNatPass (ginvNatPass (ginvNatPass fun r _ => r)))))) 1 (gmulNat a a)

theorem xtime_toNat (a : Byte) : (xtime a).toNat = xtimeNat a.toNat :=
  byte_forall (p := fun a => (xtime a).toNat = xtimeNat a.toNat) (by decide +kernel) a

/-- The passes of `gmul` from `k` on, and the same passes on numbers. -/
def GmulPasses (k n : Nat) (f : Nat → Nat → Nat → Nat) : Prop :=
  ∀ b p a : Byte, ((List.range' k n).foldl (gmulStep b) (p, a)).1.toNat = f a.toNat (b.toNat / 2 ^ k) p.toNat

theorem GmulPasses.pass {k n : Nat} {f : Nat → Nat → Nat → Nat} (h : GmulPasses (k + 1) n f) :
    GmulPasses k (n + 1) (gmulNatPass f) := by
  intro b p a
  have hd : Nat.div (b.toNat / 2 ^ k) 2 = b.toNat / 2 ^ (k + 1) := by
    show b.toNat / 2 ^ k / 2 = _
    rw [Nat.div_div_eq_div_mul, Nat.pow_succ]
  have hp : (if b.getLsbD k then p ^^^ a else p).toNat
      = Nat.xor p.toNat (Nat.mul (Nat.mod (b.toNat / 2 ^ k) 2) a.toNat) := by
    show _ = p.toNat ^^^ (b.toNat / 2 ^ k % 2 * a.toNat)
    rw [BitVec.getLsbD, Nat.testBit_eq_decide_div_mod_eq]
    rcases Nat.mod_two_eq_zero_or_one (b.toNat / 2 ^ k) with h | h <;> simp [h]
  rw [List.range'_succ, List.foldl_cons, gmulStep, h b, hp, xtime_toNat, ← hd]
  rfl

theorem gmul_toNat (a b : Byte) : (gmul a b).toNat = gmulNat a.toNat b.toNat := by
  have h0 : GmulPasses 8 0 fun _ _ p => p := fun _ _ _ => rfl
  have h := h0.pass.pass.pass.pass.pass.pass.pass.pass b 0x00#8 a
  rw [Nat.pow_zero, Nat.div_one] at h
  exact h

/-- The passes of `ginv`, and the same passes on numbers. -/
def GinvPasses (k n : Nat) (f : Nat → Nat → Nat) : Prop :=
  ∀ r s : Byte, ((List.range' k n).foldl ginvStep (r, s)).1.toNat = f r.toNat (gmulNat s.toNat s.toNat)

theorem GinvPasses.pass {k n : Nat} {f : Nat → Nat → Nat} (h : GinvPasses (k + 1) n f) :
    GinvPasses k (n + 1) (ginvNatPass f) := by
  intro r s
  rw [List.range'_succ, List.foldl_cons, ginvStep, h, gmul_toNat, gmul_toNat]
  rfl

theorem ginv_toNat (a : Byte) : (ginv a).toNat = ginvNat a.toNat := by
  have h0 : GinvPasses 7 0 fun r _ => r := fun _ _ => rfl
  exact h0.pass.pass.pass.pass.pass.pass.pass 0x01#8 a

theorem xtime_xor (a b : Byte) : xtime (a ^^^ b) = xtime a ^^^ xtime b := by
  have hx : ∀ p q r s : Byte, (p ^^^ q) ^^^ (r ^^^ s) = (p ^^^ r) ^^^ (q ^^^ s) := by
    intro p q r s; ac_rfl
  have hs : ∀ p q : Bool, (if (p ^^ q) = true then 0x1B#8 else 0x00#8)
      = (if p = true then 0x1B#8 else 0x00#8) ^^^ (if q = true then 0x1B#8 else 0x00#8) := by decide
  unfold xtime
  rw [BitVec.shiftLeft_xor_distrib, BitVec.getLsbD_xor, hs, hx]

/-- The product is the XOR over the set bits `i` of `b` of `a` after `i` passes of `xtime`. -/
theorem gmul_eq (a b : Byte) : gmul a b =
    (if b.getLsbD 0 then a else 0x00#8) ^^^ (if b.getLsbD 1 then xtime a else 0x00#8) ^^^
    (if b.getLsbD 2 then xtime (xtime a) else 0x00#8) ^^^ (if b.getLsbD 3 then xtime (xtime (xtime a)) else 0x00#8) ^^^
    (if b.getLsbD 4 then xtime (xtime (xtime (xtime a))) else 0x00#8) ^^^
    (if b.getLsbD 5 then xtime (xtime (xtime (xtime (xtime a)))) else 0x00#8) ^^^
    (if b.getLsbD 6 then xtime (xtime (xtime (xtime (xtime (xtime a))))) else 0x00#8) ^^^
    (if b.getLsbD 7 then xtime (xtime (xtime (xtime (xtime (xtime (xtime a)))))) else 0x00#8) := by
  have hif : ∀ (c : Bool) (p q : Byte), (if c = true then p ^^^ q else p) = p ^^^ (if c = true then q else 0x00#8) := by
    intro c p q; cases c <;> simp
  have hr : List.range 8 = [0, 1, 2, 3, 4, 5, 6, 7] := rfl
  simp only [gmul, hr, List.foldl, gmulStep, hif, BitVec.zero_xor]

theorem ite_xor_ite (c : Bool) (p q : Byte) :
    (if c = true then p ^^^ q else 0x00#8) = (if c = true then p else 0x00#8) ^^^ (if c = true then q else 0x00#8) := by
  cases c <;> simp

theorem gmul_xor_left (a a' b : Byte) : gmul (a ^^^ a') b = gmul a b ^^^ gmul a' b := by
  simp only [gmul_eq, xtime_xor, ite_xor_ite]
  ac_rfl

theorem ite_xor_bool (p q : Bool) (a : Byte) :
    (if (p ^^ q) = true then a else 0x00#8) = (if p = true then a else 0x00#8) ^^^ (if q = true then a else 0x00#8) := by
  cases p <;> cases q <;> simp

theorem gmul_xor_right (a b b' : Byte) : gmul a (b ^^^ b') = gmul a b ^^^ gmul a b' := by
  simp only [gmul_eq, BitVec.getLsbD_xor, ite_xor_bool]
  ac_rfl

/-- A byte is the XOR of its bits. -/
theorem byte_bits (a : Byte) : a =
    (if a.getLsbD 0 then 0x01#8 else 0x00#8) ^^^ (if a.getLsbD 1 then 0x02#8 else 0x00#8) ^^^
    (if a.getLsbD 2 then 0x04#8 else 0x00#8) ^^^ (if a.getLsbD 3 then 0x08#8 else 0x00#8) ^^^
    (if a.getLsbD 4 then 0x10#8 else 0x00#8) ^^^ (if a.getLsbD 5 then 0x20#8 else 0x00#8) ^^^
    (if a.getLsbD 6 then 0x40#8 else 0x00#8) ^^^ (if a.getLsbD 7 then 0x80#8 else 0x00#8) :=
  by
  revert a
  exact fun a => byte_forall (p := fun a => a =
    (if a.getLsbD 0 then 0x01#8 else 0x00#8) ^^^ (if a.getLsbD 1 then 0x02#8 else 0x00#8) ^^^
    (if a.getLsbD 2 then 0x04#8 else 0x00#8) ^^^ (if a.getLsbD 3 then 0x08#8 else 0x00#8) ^^^
    (if a.getLsbD 4 then 0x10#8 else 0x00#8) ^^^ (if a.getLsbD 5 then 0x20#8 else 0x00#8) ^^^
    (if a.getLsbD 6 then 0x40#8 else 0x00#8) ^^^ (if a.getLsbD 7 then 0x80#8 else 0x00#8)) (by decide +kernel) a

/-- Two additive functions that agree on the eight one-bit bytes agree. -/
theorem additive_ext {f g : Byte → Byte} (hf : ∀ a b, f (a ^^^ b) = f a ^^^ f b)
    (hg : ∀ a b, g (a ^^^ b) = g a ^^^ g b) (h : ∀ i : Fin 8, f (1#8 <<< i.val) = g (1#8 <<< i.val)) (a : Byte) :
    f a = g a := by
  have hz : f 0x00#8 = g 0x00#8 := by
    have h1 := hf 0x00#8 0x00#8
    have h2 := hg 0x00#8 0x00#8
    simp only [BitVec.xor_self] at h1 h2
    rw [h1, h2]
  have hi : ∀ (c : Bool) (v : Byte), f v = g v → f (if c = true then v else 0x00#8) = g (if c = true then v else 0x00#8) := by
    intro c v hv; cases c
    · simpa using hz
    · simpa using hv
  rw [byte_bits a]
  simp only [hf, hg]
  rw [hi _ 0x01#8 (h 0), hi _ 0x02#8 (h 1), hi _ 0x04#8 (h 2), hi _ 0x08#8 (h 3), hi _ 0x10#8 (h 4),
    hi _ 0x20#8 (h 5), hi _ 0x40#8 (h 6), hi _ 0x80#8 (h 7)]

theorem gmul_comm (a b : Byte) : gmul a b = gmul b a := by
  refine additive_ext (f := fun a => gmul a b) (g := fun a => gmul b a) (fun p q => gmul_xor_left p q b)
    (fun p q => gmul_xor_right b p q) (fun i => ?_) a
  exact additive_ext (f := fun b => gmul (1#8 <<< i.val) b) (g := fun b => gmul b (1#8 <<< i.val))
    (fun p q => gmul_xor_right _ p q) (fun p q => gmul_xor_left p q _)
    (by revert i; decide +kernel) b

theorem gmul_assoc (a b c : Byte) : gmul (gmul a b) c = gmul a (gmul b c) := by
  refine additive_ext (f := fun a => gmul (gmul a b) c) (g := fun a => gmul a (gmul b c))
    (fun p q => by simp only [gmul_xor_left]) (fun p q => by simp only [gmul_xor_left]) (fun i => ?_) a
  refine additive_ext (f := fun b => gmul (gmul (1#8 <<< i.val) b) c) (g := fun b => gmul (1#8 <<< i.val) (gmul b c))
    (fun p q => by simp only [gmul_xor_left, gmul_xor_right])
    (fun p q => by simp only [gmul_xor_left, gmul_xor_right]) (fun j => ?_) b
  refine additive_ext (f := fun c => gmul (gmul (1#8 <<< i.val) (1#8 <<< j.val)) c)
    (g := fun c => gmul (1#8 <<< i.val) (gmul (1#8 <<< j.val) c))
    (fun p q => by simp only [gmul_xor_right]) (fun p q => by simp only [gmul_xor_right]) ?_ c
  intro k
  have h : ∀ i j k : Fin 8, gmulNat (gmulNat (2 ^ i.val) (2 ^ j.val)) (2 ^ k.val)
      = gmulNat (2 ^ i.val) (gmulNat (2 ^ j.val) (2 ^ k.val)) := by decide +kernel
  have hs : ∀ i : Fin 8, (1#8 <<< i.val).toNat = 2 ^ i.val := by decide
  apply BitVec.eq_of_toNat_eq
  simp only [gmul_toNat, hs]
  exact h i j k

theorem gmul_zero (a : Byte) : gmul a 0x00#8 = 0x00#8 := by
  have h := gmul_xor_right a 0x00#8 0x00#8
  simpa using h

theorem zero_gmul (a : Byte) : gmul 0x00#8 a = 0x00#8 := by rw [gmul_comm, gmul_zero]

theorem gmul_one (a : Byte) : gmul a 0x01#8 = a :=
  byte_forall (p := fun a => gmul a 0x01#8 = a) (by decide +kernel) a

theorem one_gmul (a : Byte) : gmul 0x01#8 a = a := by rw [gmul_comm, gmul_one]

theorem gmul_ginv {a : Byte} (ha : a ≠ 0x00#8) : gmul a (ginv a) = 0x01#8 := by
  have h : ∀ n : Fin 256, n.val ≠ 0 → gmulNat n.val (ginvNat n.val) = 1 := by decide +kernel
  apply BitVec.eq_of_toNat_eq
  rw [gmul_toNat, ginv_toNat]
  exact h a.toFin fun h0 => ha (BitVec.eq_of_toNat_eq h0)

theorem gadd_comm (a b : Byte) : gadd a b = gadd b a := BitVec.xor_comm a b

theorem gadd_assoc (a b c : Byte) : gadd (gadd a b) c = gadd a (gadd b c) := BitVec.xor_assoc a b c

/-- The field of R100 as a type of its own, so that the library's field theory applies to it. -/
structure GF where
  val : Byte
deriving DecidableEq, Repr

theorem GF.eq_iff (a b : GF) : a = b ↔ a.val = b.val := by
  cases a; cases b; simp

/-- The `n`-fold sum of `a`. -/
def GF.times (n : Nat) (a : GF) : GF :=
  match n with
  | 0 => ⟨0x00#8⟩
  | m + 1 => ⟨gadd (GF.times m a).val a.val⟩

/-- The `n`-fold product of `a`. -/
def GF.power (n : Nat) (a : GF) : GF :=
  match n with
  | 0 => ⟨0x01#8⟩
  | m + 1 => ⟨gmul (GF.power m a).val a.val⟩

/-- GF(2^8) is a field under `gadd` and `gmul` (R100, R104). -/
@[reducible] def gfField : Field GF where
  add a b := ⟨gadd a.val b.val⟩
  zero := ⟨0x00#8⟩
  neg a := a
  mul a b := ⟨gmul a.val b.val⟩
  one := ⟨0x01#8⟩
  inv a := if a.val = 0x00#8 then ⟨0x00#8⟩ else ⟨ginv a.val⟩
  add_assoc a b c := congrArg GF.mk (gadd_assoc _ _ _)
  add_comm a b := congrArg GF.mk (gadd_comm _ _)
  zero_add a := congrArg GF.mk (BitVec.zero_xor (x := a.val))
  add_zero a := congrArg GF.mk (BitVec.xor_zero (x := a.val))
  neg_add_cancel a := congrArg GF.mk (BitVec.xor_self (x := a.val))
  mul_assoc a b c := congrArg GF.mk (gmul_assoc _ _ _)
  mul_comm a b := congrArg GF.mk (gmul_comm _ _)
  one_mul a := congrArg GF.mk (one_gmul a.val)
  mul_one a := congrArg GF.mk (gmul_one a.val)
  zero_mul a := congrArg GF.mk (zero_gmul a.val)
  mul_zero a := congrArg GF.mk (gmul_zero a.val)
  left_distrib a b c := congrArg GF.mk (gmul_xor_right _ _ _)
  right_distrib a b c := congrArg GF.mk (gmul_xor_left _ _ _)
  nsmul n a := GF.times n a
  zsmul n a := match n with
    | .ofNat m => GF.times m a
    | .negSucc m => GF.times (m + 1) a
  npow n a := GF.power n a
  exists_pair_ne := ⟨⟨0x00#8⟩, ⟨0x01#8⟩, by decide⟩
  mul_inv_cancel a ha := by
    have h : a.val ≠ 0x00#8 := fun h => ha ((GF.eq_iff _ _).2 h)
    show GF.mk _ = GF.mk _
    simp [h, gmul_ginv h]
  inv_zero := if_pos rfl
  nnqsmul := _
  nnqsmul_def := fun _ _ => rfl
  qsmul := _
  qsmul_def := fun _ _ => rfl

end Sys2Proof.Machine
end

