-- ==== Sys2Proof/Laws/FieldMap.lean ====
section
/-!
SUPPORT. The bytes as a field of the library (40_field_arithmetic.md R100): a bijection `φ` onto a field `F` that carries `gadd` and
`gmul` to addition and multiplication, and what it makes of the other functions of the model. A proof opens it with
`obtain ⟨F, _, ⟨B⟩⟩ := byteField_exists` and goes on in `F`.
-/

namespace Sys2Proof.Machine

open Finset

/-- A field `F` whose elements are the bytes under `φ`. -/
structure ByteField (F : Type) [Field F] where
  φ : Byte → F
  bij : Function.Bijective φ
  add : ∀ a b, φ (gadd a b) = φ a + φ b
  mul : ∀ a b, φ (gmul a b) = φ a * φ b
  zero : φ 0x00#8 = 0
  one : φ 0x01#8 = 1

theorem byteField_exists : ∃ (F : Type) (_ : Field F), Nonempty (ByteField F) := by
  refine ⟨GF, gfField, ?_⟩
  let _ : Field GF := gfField
  exact ⟨{
    φ := GF.mk
    bij := ⟨fun _ _ h => congrArg GF.val h, fun a => ⟨a.val, rfl⟩⟩
    add := fun _ _ => rfl
    mul := fun _ _ => rfl
    zero := rfl
    one := rfl }⟩

namespace ByteField

variable {F : Type} [Field F] (B : ByteField F)
include B

theorem inj {a b : Byte} : B.φ a = B.φ b ↔ a = b := B.bij.1.eq_iff

theorem eq_zero {a : Byte} : B.φ a = 0 ↔ a = 0x00#8 := by rw [← B.zero, B.inj]

/-- Every element is its own negative (R101). -/
theorem add_self (z : F) : z + z = 0 := by
  obtain ⟨a, rfl⟩ := B.bij.2 z
  rw [← B.add, gadd, BitVec.xor_self, B.zero]

theorem neg_eq (z : F) : -z = z := neg_eq_of_add_eq_zero_left (B.add_self z)

theorem sub_eq (y z : F) : y - z = y + z := by rw [sub_eq_add_neg, B.neg_eq]

theorem ginv {a : Byte} (ha : a ≠ 0x00#8) : B.φ (ginv a) = (B.φ a)⁻¹ := by
  refine eq_inv_of_mul_eq_one_left ?_
  rw [mul_comm, ← B.mul, gmul_ginv ha, B.one]

theorem gdiv (a : Byte) {b : Byte} (hb : b ≠ 0x00#8) : B.φ (gdiv a b) = B.φ a / B.φ b := by
  rw [Machine.gdiv, B.mul, B.ginv hb, div_eq_mul_inv]

theorem gpowStep (a n r : Byte) (i : Nat) :
    B.φ (gpowStep a n r i) = B.φ r * B.φ r * B.φ a ^ (n.getLsbD i).toNat := by
  unfold Machine.gpowStep
  cases n.getLsbD i <;> simp [B.mul]

/-- `gpow` is the power (R107). -/
theorem gpow (a n : Byte) : B.φ (gpow a n) = B.φ a ^ n.toNat := by
  have hn : n.toNat = (n.getLsbD 0).toNat + 2 * ((n.getLsbD 1).toNat + 2 * ((n.getLsbD 2).toNat + 2 * ((n.getLsbD 3).toNat
      + 2 * ((n.getLsbD 4).toNat + 2 * ((n.getLsbD 5).toNat + 2 * ((n.getLsbD 6).toNat + 2 * (n.getLsbD 7).toNat)))))) :=
    byte_forall (p := fun n => n.toNat = (n.getLsbD 0).toNat + 2 * ((n.getLsbD 1).toNat + 2 * ((n.getLsbD 2).toNat
      + 2 * ((n.getLsbD 3).toNat + 2 * ((n.getLsbD 4).toNat + 2 * ((n.getLsbD 5).toNat + 2 * ((n.getLsbD 6).toNat
      + 2 * (n.getLsbD 7).toNat))))))) (by decide +kernel) n
  rw [hn]
  simp only [Machine.gpow, List.foldl, B.gpowStep, B.one]
  ring

/-- Horner's loop is the value of the polynomial (R130, R131). -/
theorem hornerList (cs : List Byte) (x : Byte) :
    B.φ (hornerList cs x) = ∑ i ∈ range cs.length, B.φ (cs.getD i 0x00#8) * B.φ x ^ i := by
  induction cs with
  | nil => simp [Machine.hornerList, B.zero]
  | cons c cs ih =>
    have : Machine.hornerList (c :: cs) x = gadd (gmul (Machine.hornerList cs x) x) c := rfl
    rw [this, B.add, B.mul, ih, List.length_cons, sum_range_succ', sum_mul]
    simp [pow_succ, mul_assoc]

theorem polySum (cs : List Byte) (x : Byte) (m : Nat) (h : m + cs.length ≤ 256) :
    B.φ (polySum x m cs) = ∑ i ∈ range cs.length, B.φ (cs.getD i 0x00#8) * B.φ x ^ (m + i) := by
  induction cs generalizing m with
  | nil => simp [Machine.polySum, B.zero]
  | cons c cs ih =>
    rw [List.length_cons] at h
    rw [Machine.polySum, B.add, B.mul, B.gpow, ih (m + 1) (by omega), List.length_cons, sum_range_succ', add_comm]
    have hm : m % 2 ^ 8 = m := Nat.mod_eq_of_lt (by omega)
    simp [Nat.mod_eq_of_lt (show m < 256 by omega), Nat.add_assoc, Nat.add_comm 1]

/-- A product over the other points, by their places. -/
theorem foldr_filter (n i : Nat) (f : Nat → Byte) :
    B.φ (productExcept n i f) = ∏ j ∈ (range n).erase i, B.φ (f j) := by
  have key : ∀ l : List Nat, l.Nodup → B.φ (l.foldr (fun j acc => gmul (f j) acc) 0x01#8) = ∏ j ∈ l.toFinset, B.φ (f j) := by
    intro l
    induction l with
    | nil => intro _; simp [B.one]
    | cons a l ih =>
      intro h
      rw [List.nodup_cons] at h
      rw [List.foldr_cons, B.mul, ih h.2, List.toFinset_cons, prod_insert (by simpa using h.1)]
  rw [productExcept, key _ (List.nodup_range.filter _)]
  refine prod_congr ?_ (fun _ _ => rfl)
  ext j
  simp [and_comm]

theorem foldl_eraseIdx (xs : List Byte) (i : Nat) (f : Byte → Byte) :
    B.φ ((xs.eraseIdx i).foldl (fun n xj => gmul n (f xj)) 0x01#8)
      = ∏ j ∈ (range xs.length).erase i, B.φ (f (xs.getD j 0x00#8)) := by
  have hl : ∀ (l : List Byte) (a : Byte), B.φ (l.foldl (fun n xj => gmul n (f xj)) a) =
      B.φ a * ∏ j ∈ range l.length, B.φ (f (l.getD j 0x00#8)) := by
    intro l
    induction l with
    | nil => intro a; simp
    | cons b l ih => intro a; rw [List.foldl_cons, ih, B.mul, List.length_cons, prod_range_succ', mul_assoc]; simp [mul_comm]
  rw [hl, B.one, one_mul]
  rcases Nat.lt_or_ge i xs.length with hi | hi
  · induction xs generalizing i with
    | nil => simp at hi
    | cons b l ih =>
      cases i with
      | zero =>
        rw [List.eraseIdx_cons_zero, List.length_cons]
        have : (range (l.length + 1)).erase 0 = (range l.length).map ⟨Nat.succ, Nat.succ_injective⟩ := by
          ext j; cases j <;> simp
        rw [this, prod_map]
        rfl
      | succ i =>
        have : (range (l.length + 1)).erase (i + 1) = insert 0 (((range l.length).erase i).map ⟨Nat.succ, Nat.succ_injective⟩) := by
          ext j; cases j <;> simp
        rw [List.eraseIdx_cons_succ, List.length_cons, List.length_cons, this, prod_insert (by simp), prod_map, prod_range_succ', mul_comm]
        simp only [List.getD_cons_succ, List.getD_cons_zero, Function.Embedding.coeFn_mk]
        rw [ih i (by simpa using hi)]
  · rw [List.eraseIdx_of_length_le hi, erase_eq_of_notMem (by simpa using hi)]

/-- `num` is the product of the other x (R151). -/
theorem num (xs : List Byte) (i : Nat) :
    B.φ (num xs i) = ∏ j ∈ (range xs.length).erase i, B.φ (xs.getD j 0x00#8) := B.foldl_eraseIdx xs i id

/-- `den` is the product of the differences to the other x (R152). -/
theorem den (xs : List Byte) (i : Nat) :
    B.φ (den xs i) = ∏ j ∈ (range xs.length).erase i, (B.φ (xs.getD i 0x00#8) + B.φ (xs.getD j 0x00#8)) := by
  exact (B.foldl_eraseIdx xs i (fun xj => gadd (xs.getD i 0x00#8) xj)).trans (prod_congr rfl fun j _ => B.add _ _)

end ByteField

end Sys2Proof.Machine
end

