-- ==== Sys2Proof/Laws/Lagrange.lean ====
section
/-!
SUPPORT. The Lagrange functions of the model in the field (42_lagrange_recover.md): no denominator of distinct points is zero, and
interpolation over distinct points at 0 gives the constant term of every polynomial of degree below their number.
-/

namespace Sys2Proof.Machine

open Finset

/-- Two places of a list without repeats hold different bytes. -/
theorem nodup_getD {xs : List Byte} (h : xs.Nodup) {i j : Nat} (hi : i < xs.length) (hj : j < xs.length)
    (he : xs.getD i 0x00#8 = xs.getD j 0x00#8) : i = j := by
  rw [List.getD_eq_getElem _ _ hi, List.getD_eq_getElem _ _ hj] at he
  exact (List.Nodup.getElem_inj_iff h).1 he

namespace ByteField

variable {F : Type} [Field F] (B : ByteField F)
include B

/-- A denominator as the field sees it is zero only at a second point with the same x (R152, R163). -/
theorem den_eq_zero {xs : List Byte} {i : Nat} :
    B.φ (Machine.den xs i) = 0 ↔ ∃ j < xs.length, j ≠ i ∧ xs.getD j 0x00#8 = xs.getD i 0x00#8 := by
  rw [B.den, prod_eq_zero_iff]
  constructor
  · rintro ⟨j, hj, h⟩
    rw [mem_erase, mem_range] at hj
    rw [← B.add, B.eq_zero, gadd, BitVec.xor_eq_zero_iff] at h
    exact ⟨j, hj.2, hj.1, h.symm⟩
  · rintro ⟨j, h1, h2, h⟩
    exact ⟨j, by simp [h1, h2], by rw [h, B.add_self]⟩

theorem den_ne_zero {xs : List Byte} (h : xs.Nodup) {i : Nat} (hi : i < xs.length) : Machine.den xs i ≠ 0x00#8 := by
  intro hz
  rw [← B.eq_zero, B.den_eq_zero] at hz
  obtain ⟨j, h1, h2, h3⟩ := hz
  exact h2 (nodup_getD h h1 hi h3)

/-- The weight of point `i` (R153). -/
theorem basis {xs : List Byte} (h : xs.Nodup) {i : Nat} (hi : i < xs.length) :
    B.φ (basis xs i) = ∏ j ∈ (range xs.length).erase i,
      B.φ (xs.getD j 0x00#8) / (B.φ (xs.getD i 0x00#8) + B.φ (xs.getD j 0x00#8)) := by
  rw [Machine.basis, B.gdiv _ (B.den_ne_zero h hi), B.num, B.den, prod_div_distrib]

/-- Interpolation as a sum over the points (R154). -/
theorem interpAt {xs : List Byte} (ys : List Byte) (h : xs.Nodup) :
    B.φ (interpAt xs ys) = ∑ i ∈ range xs.length, B.φ (ys.getD i 0x00#8) * ∏ j ∈ (range xs.length).erase i,
      B.φ (xs.getD j 0x00#8) / (B.φ (xs.getD i 0x00#8) + B.φ (xs.getD j 0x00#8)) := by
  have key : ∀ n, B.φ ((List.range n).foldl (fun acc i => gadd acc (gmul (ys.getD i 0x00#8) (Machine.basis xs i))) 0x00#8) =
      ∑ i ∈ range n, B.φ (ys.getD i 0x00#8) * B.φ (Machine.basis xs i) := by
    intro n
    induction n with
    | zero => simp [B.zero]
    | succ n ih => rw [List.range_succ, List.foldl_append, List.foldl_cons, List.foldl_nil, B.add, ih, B.mul, sum_range_succ]
  refine (key xs.length).trans (sum_congr rfl fun i hi => ?_)
  rw [B.basis h (mem_range.1 hi)]

/-- A polynomial of degree below the number of distinct points is given back at 0 from its values there (R150, R160). -/
theorem eval_zero {xs : List Byte} (h : xs.Nodup) {P : Polynomial F} (hP : P.degree < xs.length) :
    ∑ i ∈ range xs.length, P.eval (B.φ (xs.getD i 0x00#8)) * ∏ j ∈ (range xs.length).erase i,
      B.φ (xs.getD j 0x00#8) / (B.φ (xs.getD i 0x00#8) + B.φ (xs.getD j 0x00#8)) = P.eval 0 := by
  have hinj : Set.InjOn (fun i => B.φ (xs.getD i 0x00#8)) (range xs.length : Finset Nat) := by
    intro i hi j hj he
    rw [mem_coe, mem_range] at hi hj
    exact nodup_getD h hi hj (B.inj.1 he)
  have hP' := Lagrange.eq_interpolate hinj (f := P) (by simpa using hP)
  conv_rhs => rw [hP']
  rw [Lagrange.interpolate_apply, Polynomial.eval_finsetSum]
  refine sum_congr rfl fun i _ => ?_
  rw [Polynomial.eval_mul, Polynomial.eval_C, Lagrange.basis, Polynomial.eval_prod]
  congr 1
  refine prod_congr rfl fun j _ => ?_
  simp only [Lagrange.basisDivisor, Polynomial.eval_mul, Polynomial.eval_C, Polynomial.eval_sub, Polynomial.eval_X, B.sub_eq,
    zero_add]
  rw [mul_comm, div_eq_mul_inv]

end ByteField

end Sys2Proof.Machine
end

