-- ==== Sys2Proof/Laws/PerInstr.lean ====
section
/-!
SUPPORT. Statements about every command as syntax, one lemma per constructor. Family `EncodeRow`: the word the encoder gives a
command has the opcode of a row of the map and passes that row's match and mask test (30_encoding.md R73, R76).
-/

namespace Sys2Proof.Laws.EncodeRow

/-- The command's word names a row and passes its test. -/
def Statement (i : Instr) : Prop :=
  ∃ row, rowOf (opField (encode i)) = some row ∧ encode i &&& row.mask = row.pattern

/-- A word with this opcode passes the test of the row the map has for it. -/
theorem of_op {w : Word} {op : Byte} (row : Row) (ho : opField w = op) (hr : rowOf op = some row)
    (hm : w &&& row.mask = row.pattern) : ∃ row, rowOf (opField w) = some row ∧ w &&& row.mask = row.pattern :=
  ⟨row, by rw [ho, hr], hm⟩

theorem nop : Statement (.nop) := by
  refine of_op ⟨0x00, 0x00000000, 0xFFFFFFFF, fun _ => .nop⟩ (op := 0x00) ?_ rfl ?_
  · simp [opField, encode]
  · simp [encode]

theorem gfadd (rd ra rb : Fin 16) : Statement (.gfadd rd ra rb) := by
  refine of_op ⟨0x01, 0x01000000, 0xFF000FFF, fun w => .gfadd (faField w) (fbField w) (fcField w)⟩ (op := 0x01) ?_ rfl ?_
  · simp [opField, encode, encR3, extract_or]
  · simp [encode, encR3, or_and]

theorem gfmul (rd ra rb : Fin 16) : Statement (.gfmul rd ra rb) := by
  refine of_op ⟨0x02, 0x02000000, 0xFF000FFF, fun w => .gfmul (faField w) (fbField w) (fcField w)⟩ (op := 0x02) ?_ rfl ?_
  · simp [opField, encode, encR3, extract_or]
  · simp [encode, encR3, or_and]

theorem gfdiv (rd ra rb : Fin 16) : Statement (.gfdiv rd ra rb) := by
  refine of_op ⟨0x03, 0x03000000, 0xFF000FFF, fun w => .gfdiv (faField w) (fbField w) (fcField w)⟩ (op := 0x03) ?_ rfl ?_
  · simp [opField, encode, encR3, extract_or]
  · simp [encode, encR3, or_and]

theorem gfinv (rd ra : Fin 16) : Statement (.gfinv rd ra) := by
  refine of_op ⟨0x04, 0x04000000, 0xFF00FFFF, fun w => .gfinv (faField w) (fbField w)⟩ (op := 0x04) ?_ rfl ?_
  · simp [opField, encode, encR2, extract_or]
  · simp [encode, encR2, or_and]

theorem gfpow (rd ra rb : Fin 16) : Statement (.gfpow rd ra rb) := by
  refine of_op ⟨0x05, 0x05000000, 0xFF000FFF, fun w => .gfpow (faField w) (fbField w) (fcField w)⟩ (op := 0x05) ?_ rfl ?_
  · simp [opField, encode, encR3, extract_or]
  · simp [encode, encR3, or_and]

theorem ldi (rd : Fin 16) (imm : Byte) : Statement (.ldi rd imm) := by
  refine of_op ⟨0x10, 0x10000000, 0xFF0F00FF, fun w => .ldi (faField w) (imm8Field w)⟩ (op := 0x10) ?_ rfl ?_
  · simp [opField, encode, encAI8, extract_or]
  · simp [encode, encAI8, or_and]

theorem mov (rd ra : Fin 16) : Statement (.mov rd ra) := by
  refine of_op ⟨0x11, 0x11000000, 0xFF00FFFF, fun w => .mov (faField w) (fbField w)⟩ (op := 0x11) ?_ rfl ?_
  · simp [opField, encode, encR2, extract_or]
  · simp [encode, encR2, or_and]

theorem rdr (ra : Fin 16) : Statement (.rdr ra) := by
  refine of_op ⟨0x12, 0x12000000, 0xFFF0FFFF, fun w => .rdr (fbField w)⟩ (op := 0x12) ?_ rfl ?_
  · simp [opField, encode, encB, extract_or]
  · simp [encode, encB, or_and]

theorem ldc (k ra : Fin 16) : Statement (.ldc k ra) := by
  refine of_op ⟨0x18, 0x18000000, 0xFF00FFFF, fun w => .ldc (faField w) (fbField w)⟩ (op := 0x18) ?_ rfl ?_
  · simp [opField, encode, encR2, extract_or]
  · simp [encode, encR2, or_and]

theorem ldci (k : Fin 16) (imm : Byte) : Statement (.ldci k imm) := by
  refine of_op ⟨0x19, 0x19000000, 0xFF0F00FF, fun w => .ldci (faField w) (imm8Field w)⟩ (op := 0x19) ?_ rfl ?_
  · simp [opField, encode, encAI8, extract_or]
  · simp [encode, encAI8, or_and]

theorem ldcr (k : Fin 16) : Statement (.ldcr k) := by
  refine of_op ⟨0x1A, 0x1A000000, 0xFF0FFFFF, fun w => .ldcr (faField w)⟩ (op := 0x1A) ?_ rfl ?_
  · simp [opField, encode, encA, extract_or]
  · simp [encode, encA, or_and]

theorem secnew : Statement (.secnew) := by
  refine of_op ⟨0x20, 0x20000000, 0xFFFFFFFF, fun _ => .secnew⟩ (op := 0x20) ?_ rfl ?_
  · simp [opField, encode]
  · simp [encode]

theorem secpush (ra : Fin 16) : Statement (.secpush ra) := by
  refine of_op ⟨0x21, 0x21000000, 0xFFF0FFFF, fun w => .secpush (fbField w)⟩ (op := 0x21) ?_ rfl ?_
  · simp [opField, encode, encB, extract_or]
  · simp [encode, encB, or_and]

theorem secpushi (imm : Byte) : Statement (.secpushi imm) := by
  refine of_op ⟨0x22, 0x22000000, 0xFFFF00FF, fun w => .secpushi (imm8Field w)⟩ (op := 0x22) ?_ rfl ?_
  · simp [opField, encode, encI8, extract_or]
  · simp [encode, encI8, or_and]

theorem secrd (rd : Fin 16) (addr : Half) : Statement (.secrd rd addr) := by
  refine of_op ⟨0x23, 0x23000000, 0xFF0F0000, fun w => .secrd (faField w) (imm16Field w)⟩ (op := 0x23) ?_ rfl ?_
  · simp [opField, encode, encAI16, extract_or]
  · simp [encode, encAI16, or_and]

theorem shnew : Statement (.shnew) := by
  refine of_op ⟨0x28, 0x28000000, 0xFFFFFFFF, fun _ => .shnew⟩ (op := 0x28) ?_ rfl ?_
  · simp [opField, encode]
  · simp [encode]

theorem shopen (ra : Fin 16) : Statement (.shopen ra) := by
  refine of_op ⟨0x29, 0x29000000, 0xFFF0FFFF, fun w => .shopen (fbField w)⟩ (op := 0x29) ?_ rfl ?_
  · simp [opField, encode, encB, extract_or]
  · simp [encode, encB, or_and]

theorem shopeni (imm : Byte) : Statement (.shopeni imm) := by
  refine of_op ⟨0x2A, 0x2A000000, 0xFFFF00FF, fun w => .shopeni (imm8Field w)⟩ (op := 0x2A) ?_ rfl ?_
  · simp [opField, encode, encI8, extract_or]
  · simp [encode, encI8, or_and]

theorem shpush (j ra : Fin 16) : Statement (.shpush j ra) := by
  refine of_op ⟨0x2B, 0x2B000000, 0xFF00FFFF, fun w => .shpush (faField w) (fbField w)⟩ (op := 0x2B) ?_ rfl ?_
  · simp [opField, encode, encR2, extract_or]
  · simp [encode, encR2, or_and]

theorem shpushi (j : Fin 16) (imm : Byte) : Statement (.shpushi j imm) := by
  refine of_op ⟨0x2C, 0x2C000000, 0xFF0F00FF, fun w => .shpushi (faField w) (imm8Field w)⟩ (op := 0x2C) ?_ rfl ?_
  · simp [opField, encode, encAI8, extract_or]
  · simp [encode, encAI8, or_and]

theorem shrd (rd j : Fin 16) (addr : Half) : Statement (.shrd rd j addr) := by
  refine of_op ⟨0x2D, 0x2D000000, 0xFF000000, fun w => .shrd (faField w) (fbField w) (imm16Field w)⟩ (op := 0x2D) ?_ rfl ?_
  · simp [opField, encode, extract_or]
  · simp [encode, or_and]

theorem shx (rd j : Fin 16) : Statement (.shx rd j) := by
  refine of_op ⟨0x2E, 0x2E000000, 0xFF00FFFF, fun w => .shx (faField w) (fbField w)⟩ (op := 0x2E) ?_ rfl ?_
  · simp [opField, encode, encR2, extract_or]
  · simp [encode, encR2, or_and]

theorem eval (rd ra : Fin 16) (k : Byte) : Statement (.eval rd ra k) := by
  refine of_op ⟨0x30, 0x30000000, 0xFF0000FF, fun w => .eval (faField w) (fbField w) (imm8Field w)⟩ (op := 0x30) ?_ rfl ?_
  · simp [opField, encode, extract_or]
  · simp [encode, or_and]

theorem split (k n : Byte) : Statement (.split k n) := by
  refine of_op ⟨0x31, 0x31000000, 0xFFFF0000, fun w => .split (imm8Field w) (n8Field w)⟩ (op := 0x31) ?_ rfl ?_
  · simp [opField, encode, extract_or]
  · simp [encode, or_and]

theorem lbasis (rn rd i : Fin 16) : Statement (.lbasis rn rd i) := by
  refine of_op ⟨0x38, 0x38000000, 0xFF000FFF, fun w => .lbasis (faField w) (fbField w) (fcField w)⟩ (op := 0x38) ?_ rfl ?_
  · simp [opField, encode, encR3, extract_or]
  · simp [encode, encR3, or_and]

theorem interp (rd : Fin 16) (pos : Half) : Statement (.interp rd pos) := by
  refine of_op ⟨0x39, 0x39000000, 0xFF0F0000, fun w => .interp (faField w) (imm16Field w)⟩ (op := 0x39) ?_ rfl ?_
  · simp [opField, encode, encAI16, extract_or]
  · simp [encode, encAI16, or_and]

theorem recover : Statement (.recover) := by
  refine of_op ⟨0x3A, 0x3A000000, 0xFFFFFFFF, fun _ => .recover⟩ (op := 0x3A) ?_ rfl ?_
  · simp [opField, encode]
  · simp [encode]

theorem rdcsr (n : Byte) : Statement (.rdcsr n) := by
  refine of_op ⟨0x7E, 0x7E000000, 0xFFFF00FF, fun w => .rdcsr (imm8Field w)⟩ (op := 0x7E) ?_ rfl ?_
  · simp [opField, encode, encI8, extract_or]
  · simp [encode, encI8, or_and]

theorem sreset : Statement (.sreset) := by
  refine of_op ⟨0x7F, 0x7F000000, 0xFFFFFFFF, fun _ => .sreset⟩ (op := 0x7F) ?_ rfl ?_
  · simp [opField, encode]
  · simp [encode]

end Sys2Proof.Laws.EncodeRow
end

