-- ==== Sys2Proof/Laws/Split.lean ====
section
/-!
SUPPORT. The split loop of 41_polynomial_split.md R133, said once: which polynomial each byte position gets (R134), what each slot
then holds, and what stays in the coefficient file (R27).
-/

namespace Sys2Proof.Machine

theorem writeCoefs_getElem (cf : Vector Byte 16) (m : Nat) (vs : List Byte) (i : Nat) (hi : i < 16) :
    (writeCoefs cf m vs)[i] = if m ≤ i ∧ i < m + vs.length then vs.getD (i - m) 0x00#8 else cf[i] := by
  induction vs generalizing cf m with
  | nil => rw [writeCoefs, if_neg (by rw [List.length_nil]; omega)]
  | cons v vs ih =>
    rw [writeCoefs, ih, List.length_cons]
    by_cases h1 : m + 1 ≤ i ∧ i < m + 1 + vs.length
    · rw [if_pos h1, if_pos (by omega)]
      have : i - m = (i - (m + 1)) + 1 := by omega
      rw [this, List.getD_cons_succ]
    · rw [if_neg h1, Vector.getElem_setIfInBounds hi]
      by_cases h2 : m = i
      · subst h2; rw [if_pos rfl, if_pos (by omega)]; simp
      · rw [if_neg h2, if_neg (by omega)]

/-- What was written from place 0 on is what the evaluator reads. -/
theorem horner_writeCoefs (cf : Vector Byte 16) (vs : List Byte) (h : vs.length ≤ 16) (x : Byte) :
    horner (writeCoefs cf 0 vs) vs.length x = hornerList vs x := by
  have : (writeCoefs cf 0 vs).toList.take vs.length = vs := by
    apply List.ext_getElem
    · simpa using h
    · intro i h1 h2
      rw [List.getElem_take, Vector.getElem_toList, writeCoefs_getElem _ _ _ _ (by omega), if_pos (by omega)]
      simp [h2]
  rw [horner, this]

theorem positionCoefs_zero (b : Byte) (bs draws : List Byte) (k : Nat) :
    positionCoefs (b :: bs) draws k 0 = b :: draws.take (k - 1) := by
  simp [positionCoefs]

theorem positionCoefs_succ (b : Byte) (bs draws : List Byte) (k i : Nat) :
    positionCoefs (b :: bs) draws k (i + 1) = positionCoefs bs (draws.drop (k - 1)) k i := by
  simp [positionCoefs, Nat.add_mul, Nat.add_comm]

/-- With enough draws every position has `k` coefficients. -/
theorem positionCoefs_length {sec draws : List Byte} {k i : Nat} (hk : 1 ≤ k) (hi : i < sec.length)
    (hd : sec.length * (k - 1) ≤ draws.length) : (positionCoefs sec draws k i).length = k := by
  have h1 : (i + 1) * (k - 1) ≤ sec.length * (k - 1) := Nat.mul_le_mul_right _ hi
  have h2 : (i + 1) * (k - 1) = i * (k - 1) + (k - 1) := Nat.succ_mul _ _
  have h3 : k - 1 ≤ draws.length - i * (k - 1) := by omega
  simp only [positionCoefs, List.length_cons, List.length_take, List.length_drop, Nat.min_eq_left h3]
  omega

/-- Only the draws a split makes matter to its polynomials. -/
theorem positionCoefs_take {sec draws : List Byte} {k i : Nat} (hi : i < sec.length) :
    positionCoefs sec (draws.take (sec.length * (k - 1))) k i = positionCoefs sec draws k i := by
  have h1 : (i + 1) * (k - 1) ≤ sec.length * (k - 1) := Nat.mul_le_mul_right _ hi
  have h2 : (i + 1) * (k - 1) = i * (k - 1) + (k - 1) := Nat.succ_mul _ _
  simp only [positionCoefs, List.drop_take, List.take_take]
  rw [Nat.min_eq_left (by omega)]

/-- The slots after the loop (R133): every slot keeps its point and gets one byte per position, the value there of that position's
polynomial. -/
theorem splitLoop_slots {k : Nat} (hk : 1 ≤ k) (hk' : k ≤ 16) (bs draws : List Byte) (cf : Vector Byte 16) (slots : List Slot)
    (hd : bs.length * (k - 1) ≤ draws.length) :
    (splitLoop k bs draws cf slots).2 = slots.map fun sl =>
      ⟨sl.x, sl.vals ++ (List.range bs.length).map fun i => hornerList (positionCoefs bs draws k i) sl.x⟩ := by
  induction bs generalizing draws cf slots with
  | nil => simp [splitLoop]
  | cons b bs ih =>
    have hs : (bs.length + 1) * (k - 1) = bs.length * (k - 1) + (k - 1) := Nat.succ_mul _ _
    rw [List.length_cons, hs] at hd
    have hl : (b :: draws.take (k - 1)).length = k := by
      rw [List.length_cons, List.length_take, Nat.min_eq_left (by omega)]; omega
    have hh : ∀ x, horner (writeCoefs cf 0 (b :: draws.take (k - 1))) k x = hornerList (b :: draws.take (k - 1)) x := by
      intro x
      have := horner_writeCoefs cf (b :: draws.take (k - 1)) (by omega) x
      rwa [hl] at this
    rw [splitLoop, ih _ _ _ (by rw [List.length_drop]; omega), appendShares, List.map_map]
    refine List.map_congr_left fun sl _ => ?_
    simp only [Function.comp, Slot.push, hh, List.length_cons, List.range_succ_eq_map, List.map_cons, List.map_map,
      positionCoefs_zero, List.append_assoc, List.singleton_append]
    congr 3
    exact List.map_congr_left fun i _ => by rw [Function.comp, positionCoefs_succ]

/-- The coefficient file after the loop (R27): the last position's polynomial below `k`, unchanged above. -/
theorem splitLoop_coefs {k : Nat} (hk : 1 ≤ k) (bs draws : List Byte) (cf : Vector Byte 16) (slots : List Slot)
    (hd : bs.length * (k - 1) ≤ draws.length) (hb : bs ≠ []) (m : Nat) (hm : m < 16) :
    (splitLoop k bs draws cf slots).1[m] =
      if m < k then (positionCoefs bs draws k (bs.length - 1)).getD m 0x00#8 else cf[m] := by
  induction bs generalizing draws cf slots with
  | nil => exact absurd rfl hb
  | cons b bs ih =>
    have hs : (bs.length + 1) * (k - 1) = bs.length * (k - 1) + (k - 1) := Nat.succ_mul _ _
    rw [List.length_cons, hs] at hd
    have hl : (b :: draws.take (k - 1)).length = k := by
      rw [List.length_cons, List.length_take, Nat.min_eq_left (by omega)]; omega
    rw [splitLoop]
    cases bs with
    | nil =>
      rw [splitLoop, writeCoefs_getElem _ _ _ _ hm, hl]
      simp only [Nat.zero_le, true_and, Nat.zero_add, Nat.sub_zero, List.length_singleton, Nat.sub_self, positionCoefs_zero]
    | cons b' bs' =>
      rw [ih _ _ _ (by rw [List.length_drop]; omega) (by simp), writeCoefs_getElem _ _ _ _ hm, hl, List.length_cons,
        List.length_cons, List.length_cons, Nat.add_sub_cancel, Nat.add_sub_cancel, positionCoefs_succ]
      by_cases h : m < k
      · rw [if_pos h, if_pos h]
      · rw [if_neg h, if_neg h, if_neg (by omega)]

/-- Every slot after the loop is as long as the secret. -/
theorem splitLoop_lengths (k : Nat) (bs draws : List Byte) (cf : Vector Byte 16) (slots : List Slot) (m : Nat)
    (h : ∀ sl ∈ slots, sl.vals.length = m) :
    (splitLoop k bs draws cf slots).2.length = slots.length ∧
    ∀ sl ∈ (splitLoop k bs draws cf slots).2, sl.vals.length = m + bs.length := by
  induction bs generalizing draws cf slots m with
  | nil => exact ⟨rfl, h⟩
  | cons b bs ih =>
    have hr := ih (draws.drop (k - 1)) (writeCoefs cf 0 (b :: draws.take (k - 1)))
      (appendShares (writeCoefs cf 0 (b :: draws.take (k - 1))) k slots) (m + 1)
      (by
        intro sl hsl
        rw [appendShares, List.mem_map] at hsl
        obtain ⟨a, ha, rfl⟩ := hsl
        simp [h a ha])
    refine ⟨hr.1.trans (by simp [appendShares]), fun sl hsl => ?_⟩
    rw [hr.2 sl hsl, List.length_cons]
    omega

end Sys2Proof.Machine
end

