-- ==== Sys2Proof/Machine/Asm.lean ====
section
/-!
DEFINITION. The listing syntax of 30_encoding.md R80: the mnemonic in capitals, a space, operands separated by commas in the order
of R76; a scalar register is `r0` .. `r15`, every other operand an unsigned numeral.
-/

namespace Sys2Proof.Machine

/-- A scalar register in a listing (R80). -/
def asmReg (i : Fin 16) : String := "r" ++ toString i.val

/-- A 4-bit index that is no scalar register (R80). -/
def asmIdx (i : Fin 16) : String := toString i.val

/-- An immediate, in decimal (R80). -/
def asmImm (n : Nat) : String := toString n

/-- A listing line: the mnemonic, then its operands (R80). -/
def asmOf (mnemonic : String) (operands : List String) : String :=
  match operands with
  | [] => mnemonic
  | _ => mnemonic ++ " " ++ String.intercalate ", " operands

/-- The listing line of a command (R80). -/
def asmLine : Instr → String
  | .nop => asmOf "NOP" []
  | .gfadd rd ra rb => asmOf "GFADD" [asmReg rd, asmReg ra, asmReg rb]
  | .gfmul rd ra rb => asmOf "GFMUL" [asmReg rd, asmReg ra, asmReg rb]
  | .gfdiv rd ra rb => asmOf "GFDIV" [asmReg rd, asmReg ra, asmReg rb]
  | .gfinv rd ra => asmOf "GFINV" [asmReg rd, asmReg ra]
  | .gfpow rd ra rb => asmOf "GFPOW" [asmReg rd, asmReg ra, asmReg rb]
  | .ldi rd imm => asmOf "LDI" [asmReg rd, asmImm imm.toNat]
  | .mov rd ra => asmOf "MOV" [asmReg rd, asmReg ra]
  | .rdr ra => asmOf "RDR" [asmReg ra]
  | .ldc k ra => asmOf "LDC" [asmIdx k, asmReg ra]
  | .ldci k imm => asmOf "LDCI" [asmIdx k, asmImm imm.toNat]
  | .ldcr k => asmOf "LDCR" [asmIdx k]
  | .secnew => asmOf "SECNEW" []
  | .secpush ra => asmOf "SECPUSH" [asmReg ra]
  | .secpushi imm => asmOf "SECPUSHI" [asmImm imm.toNat]
  | .secrd rd addr => asmOf "SECRD" [asmReg rd, asmImm addr.toNat]
  | .shnew => asmOf "SHNEW" []
  | .shopen ra => asmOf "SHOPEN" [asmReg ra]
  | .shopeni imm => asmOf "SHOPENI" [asmImm imm.toNat]
  | .shpush j ra => asmOf "SHPUSH" [asmIdx j, asmReg ra]
  | .shpushi j imm => asmOf "SHPUSHI" [asmIdx j, asmImm imm.toNat]
  | .shrd rd j addr => asmOf "SHRD" [asmReg rd, asmIdx j, asmImm addr.toNat]
  | .shx rd j => asmOf "SHX" [asmReg rd, asmIdx j]
  | .eval rd ra k => asmOf "EVAL" [asmReg rd, asmReg ra, asmImm k.toNat]
  | .split k n => asmOf "SPLIT" [asmImm k.toNat, asmImm n.toNat]
  | .lbasis rn rd i => asmOf "LBASIS" [asmReg rn, asmReg rd, asmIdx i]
  | .interp rd pos => asmOf "INTERP" [asmReg rd, asmImm pos.toNat]
  | .recover => asmOf "RECOVER" []
  | .rdcsr n => asmOf "RDCSR" [asmImm n.toNat]
  | .sreset => asmOf "SRESET" []

end Sys2Proof.Machine
end

