-- ==== Sys2Proof/Tests/Slice0.lean ====
section
/-!
SUPPORT. The model's own tests: ill-formed terms, one word per command written out from 30_encoding.md, single steps whose results
stand in 95_test_vectors.md or in a command's rule, and, for every statement with hypotheses, states and operands that meet them.
-/

namespace Sys2Proof.Tests

-- One theorem after the other: each of them waits for the kernel, and waiting side by side they would take a thread each.
set_option Elab.async false

open Sys2Proof.Machine

/-! ## Well-formed terms: the one constraint, LBASIS `rn != rd` (R156) -/

theorem test_wf_lbasis_equal_refused : (Instr.lbasis 1 1 0).wf = false := by decide
theorem test_wf_lbasis_equal_refused_top : (Instr.lbasis 15 15 15).wf = false := by decide
theorem test_wf_lbasis_distinct : (Instr.lbasis 1 2 0).wf = true := by decide

/-! ## Decoding: op, fa, fb, fc or imm8 and n8 or imm16 of each word are those of the rule named -/

theorem test_decode_nop : decode 0x00000000#32 = .ok .nop := by decide                              -- R210
theorem test_decode_gfadd : decode 0x01412000#32 = .ok (.gfadd 4 1 2) := by decide                  -- R110
theorem test_decode_gfmul : decode 0x02312000#32 = .ok (.gfmul 3 1 2) := by decide                  -- R111
theorem test_decode_gfdiv : decode 0x03A10000#32 = .ok (.gfdiv 10 1 0) := by decide                 -- R112
theorem test_decode_gfinv : decode 0x04610000#32 = .ok (.gfinv 6 1) := by decide                    -- R114
theorem test_decode_gfpow : decode 0x05918000#32 = .ok (.gfpow 9 1 8) := by decide                  -- R115
theorem test_decode_ldi : decode 0x10105700#32 = .ok (.ldi 1 0x57#8) := by decide                   -- R180
theorem test_decode_mov : decode 0x11210000#32 = .ok (.mov 2 1) := by decide                        -- R181
theorem test_decode_rdr : decode 0x12030000#32 = .ok (.rdr 3) := by decide                          -- R182
theorem test_decode_ldc : decode 0x181F0000#32 = .ok (.ldc 1 15) := by decide                       -- 2.2, line 6
theorem test_decode_ldci : decode 0x19007700#32 = .ok (.ldci 0 0x77#8) := by decide                 -- R184
theorem test_decode_ldcr : decode 0x1A100000#32 = .ok (.ldcr 1) := by decide                        -- R185
theorem test_decode_secnew : decode 0x20000000#32 = .ok .secnew := by decide                        -- R186
theorem test_decode_secpush : decode 0x210F0000#32 = .ok (.secpush 15) := by decide                 -- 2.2, line 10
theorem test_decode_secpushi : decode 0x22007700#32 = .ok (.secpushi 0x77#8) := by decide           -- R188
theorem test_decode_secrd : decode 0x23100002#32 = .ok (.secrd 1 2#16) := by decide                 -- R189
theorem test_decode_shnew : decode 0x28000000#32 = .ok .shnew := by decide                          -- R190
theorem test_decode_shopen : decode 0x29010000#32 = .ok (.shopen 1) := by decide                    -- R191
theorem test_decode_shopeni : decode 0x2A000300#32 = .ok (.shopeni 0x03#8) := by decide             -- R192
theorem test_decode_shpush : decode 0x2B020000#32 = .ok (.shpush 0 2) := by decide                  -- R193
theorem test_decode_shpushi : decode 0x2C108300#32 = .ok (.shpushi 1 0x83#8) := by decide           -- R194
theorem test_decode_shrd : decode 0x2D410000#32 = .ok (.shrd 4 1 0#16) := by decide                 -- R195
theorem test_decode_shx : decode 0x2E310000#32 = .ok (.shx 3 1) := by decide                        -- R196
theorem test_decode_eval : decode 0x30210200#32 = .ok (.eval 2 1 2#8) := by decide                  -- R132
theorem test_decode_split : decode 0x31000203#32 = .ok (.split 2#8 3#8) := by decide                -- R133
theorem test_decode_lbasis : decode 0x38120000#32 = .ok (.lbasis 1 2 0) := by decide                -- R156
theorem test_decode_interp : decode 0x39300000#32 = .ok (.interp 3 0#16) := by decide               -- R157
theorem test_decode_recover : decode 0x3A000000#32 = .ok .recover := by decide                      -- R158
theorem test_decode_rdcsr : decode 0x7E001000#32 = .ok (.rdcsr 0x10#8) := by decide                 -- 2.2, line 20
theorem test_decode_sreset : decode 0x7F000000#32 = .ok .sreset := by decide                        -- R212

/-- R77: an opcode of no row, a reserved bit, LBASIS with equal destinations. -/
theorem test_decode_illegal :
    decode 0x06000000#32 = .error (.unassignedOpcode 0x06#8) ∧ decode 0xFF000000#32 = .error (.unassignedOpcode 0xFF#8) ∧
    decode 0x10115700#32 = .error (.reservedBits 0x10115700#32) ∧ decode 0x38110000#32 = .error (.equalDestinations 1) := by
  decide

/-- R80: the listing lines of the rule's three examples, and their words. -/
theorem test_asm_examples :
    asmLine (.gfmul 3 1 2) = "GFMUL r3, r1, r2" ∧ asmLine (.split 2 3) = "SPLIT 2, 3" ∧ asmLine (.shrd 4 1 0) = "SHRD r4, 1, 0" ∧
    encode (.gfmul 3 1 2) = 0x02312000#32 ∧ encode (.split 2 3) = 0x31000203#32 ∧ encode (.shrd 4 1 0) = 0x2D410000#32 := by
  decide +kernel

/-! ## Single steps -/

/-- The next state, if there is one. -/
def next? (o : Out) : Option State :=
  match o with
  | .next t => some t
  | .fault _ => none
  | .refused _ => none

/-- A state of capacity 8 with these scalar registers 0, 1, 2, 3, 8. -/
def withRegs (r0 r1 r2 r3 r8 : Byte) : State :=
  { State.start 8 [] [] with
    r := ((((Vector.replicate 16 0x00#8).set 0 r0).set 1 r1).set 2 r2).set 3 r3 |>.set 8 r8 }

/-- The registers of the command vectors of 95_test_vectors.md 2.1. -/
def regs21 : State := withRegs 0x00#8 0x57#8 0x83#8 0xC1#8 0xFE#8

/-- A state of capacity 8 with this secret and these entropy bytes. -/
def withSecret (sec rnd : List Byte) : State := { State.start 8 [] rnd with secv := true, sec := sec }

/-- A state of capacity 8 with these open slots. -/
def withSlots (slots : List Slot) : State := { State.start 8 [] [] with shv := true, slots := slots }

/-- A register and the last response of the next state. -/
def regAndResponse (o : Out) (i : Fin 16) : Option (Byte × Option Word) := (next? o).map fun t => (t.reg i, t.rsps.getLast?)

/-- The last response of the next state. -/
def response (o : Out) : Option (Option Word) := (next? o).map fun t => t.rsps.getLast?

-- 95_test_vectors.md 2.1
theorem test_gfadd : regAndResponse (exec (.gfadd 4 1 2) regs21) 4 = some (0xD4#8, some 0x000000D4#32) := by decide +kernel
theorem test_gfmul : regAndResponse (exec (.gfmul 3 1 2) regs21) 3 = some (0xC1#8, some 0x000000C1#32) := by decide +kernel
theorem test_gfmul_source_is_destination :
    regAndResponse (exec (.gfmul 1 1 1) regs21) 1 = some (0xA5#8, some 0x000000A5#32) := by decide +kernel
theorem test_gfdiv : regAndResponse (exec (.gfdiv 5 3 2) regs21) 5 = some (0x57#8, some 0x00000057#32) := by decide +kernel
theorem test_gfdiv_zero : (next? (exec (.gfdiv 10 1 0) regs21)).map (fun t => (t.reg 10, t.last, t.fltmask, t.rsps)) =
    some (0x00#8, 6#8, 0x0040#16, [0x06000000#32]) := by decide +kernel
theorem test_gfinv : regAndResponse (exec (.gfinv 6 1) regs21) 6 = some (0xBF#8, some 0x000000BF#32) := by decide +kernel
theorem test_gfinv_zero : response (exec (.gfinv 6 0) regs21) = some (some 0x06000000#32) := by decide +kernel
theorem test_gfpow : regAndResponse (exec (.gfpow 9 1 8) regs21) 9 = some (0xBF#8, some 0x000000BF#32) := by decide +kernel
theorem test_gfpow_zero_zero : regAndResponse (exec (.gfpow 9 0 0) regs21) 9 = some (0x01#8, some 0x00000001#32) := by
  decide +kernel
theorem test_gmul_corners : gmul 0xFF#8 0xFF#8 = 0x13#8 ∧ gmul 0x80#8 0x80#8 = 0x9A#8 ∧ gmul 0xB6#8 0x53#8 = 0x36#8 := by
  decide +kernel
-- 40_field_arithmetic.md R105, R116
theorem test_inverses : ginv 0x53#8 = 0xCA#8 ∧ ginvEea 0x53#8 = 0xCA#8 ∧ ginv 0xFF#8 = 0x1C#8 ∧ ginvEea 0xFF#8 = 0x1C#8 := by
  decide +kernel

-- 95_test_vectors.md 2.2
theorem test_ldi : regAndResponse (exec (.ldi 15 0xFF#8) regs21) 15 = some (0xFF#8, some 0x000000FF#32) := by decide +kernel
theorem test_mov : regAndResponse (exec (.mov 0 1) regs21) 0 = some (0x57#8, some 0x00000057#32) := by decide +kernel
theorem test_rdr : response (exec (.rdr 3) regs21) = some (some 0x000000C1#32) := by decide +kernel
theorem test_ldc : (next? (exec (.ldc 1 1) regs21)).map (fun t => (t.coef 1, t.rsps)) = some (0x57#8, [0x00000000#32]) := by
  decide +kernel
theorem test_ldci : (next? (exec (.ldci 0 0x77#8) regs21)).map (fun t => (t.coef 0, t.rsps)) = some (0x77#8, [0x00000000#32]) := by
  decide +kernel
-- R185
theorem test_ldcr : (next? (exec (.ldcr 1) (State.start 8 [] [0xA5#8, 0x11#8]))).map (fun t => (t.coef 1, t.rnd, t.rsps)) =
    some (0xA5#8, [0x11#8], [0x00000000#32]) := by decide +kernel
theorem test_ldcr_waits : (next? (exec (.ldcr 1) (State.start 8 [] []))).map (fun t => (t.held, t.rsps)) =
    some (some (.ldcr 1), []) := by decide +kernel
theorem test_secnew : (next? (exec .secnew (withSecret [0x05#8] []))).map (fun t => (t.secv, t.sec, t.rsps)) =
    some (true, [], [0x00000000#32]) := by decide +kernel
-- R187: the byte goes to the end, the response is the new length
theorem test_secpush : (next? (exec (.secpush 1) { regs21 with secv := true, sec := [0x05#8] })).map (fun t => (t.sec, t.rsps)) =
    some ([0x05#8, 0x57#8], [0x00000002#32]) := by decide +kernel
theorem test_secpushi_full : response (exec (.secpushi 0x77#8) (withSecret [1, 2, 3, 4, 5, 6, 7, 8] [])) =
    some (some 0x0A000000#32) := by decide +kernel
theorem test_secpushi_null : response (exec (.secpushi 0x77#8) (State.start 8 [] [])) = some (some 0x01000000#32) := by
  decide +kernel
-- R189
theorem test_secrd : regAndResponse (exec (.secrd 1 2#16) (withSecret [0x53#8, 0x65#8, 0x63#8] [])) 1 =
    some (0x63#8, some 0x00000063#32) := by decide +kernel
theorem test_secrd_past_end : regAndResponse (exec (.secrd 1 3#16) (withSecret [0x53#8, 0x65#8, 0x63#8] [])) 1 =
    some (0x00#8, some 0x0B000000#32) := by decide +kernel
theorem test_shnew : (next? (exec .shnew (withSlots [⟨1, [0xD2#8]⟩]))).map (fun t => (t.shv, t.slots, t.rsps)) =
    some (true, [], [0x00000000#32]) := by decide +kernel
-- R191, R192: the response is the number of the slot just opened
theorem test_shopen : (next? (exec (.shopen 1) { regs21 with shv := true })).map (fun t => (t.slots, t.rsps)) =
    some ([⟨0x57#8, []⟩], [0x00000000#32]) := by decide +kernel
theorem test_shopeni : (next? (exec (.shopeni 0x03#8) (withSlots [⟨0x02#8, []⟩]))).map (fun t => (t.slots, t.rsps)) =
    some ([⟨0x02#8, []⟩, ⟨0x03#8, []⟩], [0x00000001#32]) := by decide +kernel
-- R193, R194
theorem test_shpush : (next? (exec (.shpush 0 2) { regs21 with shv := true, slots := [⟨5, [0xFF#8]⟩] })).map
    (fun t => (t.slots, t.rsps)) = some ([⟨5, [0xFF#8, 0x83#8]⟩], [0x00000002#32]) := by decide +kernel
theorem test_shpushi_closed_slot : response (exec (.shpushi 1 0x83#8) (withSlots [⟨5, []⟩])) = some (some 0x0B000000#32) := by
  decide +kernel
theorem test_shrd : regAndResponse (exec (.shrd 5 0 1#16) (withSlots [⟨5, [0xFF#8, 0x2B#8]⟩])) 5 =
    some (0x2B#8, some 0x0000002B#32) := by decide +kernel
theorem test_shx : regAndResponse (exec (.shx 4 0) (withSlots [⟨5, [0xFF#8, 0x2B#8]⟩])) 4 = some (0x05#8, some 0x00000005#32) := by
  decide +kernel

-- 95_test_vectors.md 2.3, S1, S2
theorem test_split_s1 : (next? (exec (.split 2 3) (withSecret [0x77#8] [0xA5#8]))).map (fun t => (t.slots, t.rnd, t.rsps)) =
    some ([⟨1, [0xD2#8]⟩, ⟨2, [0x26#8]⟩, ⟨3, [0x83#8]⟩], [], [0x00000003#32]) := by decide +kernel
theorem test_split_s2 : (next? (exec (.split 3 5) (withSecret [0x53#8, 0x65#8, 0x63#8]
      [0x11#8, 0x22#8, 0x33#8, 0x44#8, 0x55#8, 0x66#8]))).map (fun t => (t.slots, t.coef 0, t.coef 1, t.coef 2)) =
    some ([⟨1, [0x60#8, 0x12#8, 0x50#8]⟩, ⟨2, [0xF9#8, 0x08#8, 0x4A#8]⟩, ⟨3, [0xCA#8, 0x7F#8, 0x79#8]⟩,
      ⟨4, [0x01#8, 0x85#8, 0x16#8]⟩, ⟨5, [0x32#8, 0xF2#8, 0x25#8]⟩], 0x63#8, 0x55#8, 0x66#8) := by decide +kernel
-- 95_test_vectors.md 2.3: f(FF) = 47 for c = [77 A5 3C]
theorem test_eval : regAndResponse (exec (.eval 5 1 3#8)
      { withRegs 0 0xFF#8 0 0 0 with
        c := (((Vector.replicate 16 0x00#8).set 0 0x77#8).set 1 0xA5#8).set 2 0x3C#8 }) 5 =
    some (0x47#8, some 0x00000047#32) := by decide +kernel

-- 42_lagrange_recover.md R156, R157, R158
theorem test_lbasis : (next? (exec (.lbasis 1 2 0) (withSlots [⟨2, []⟩, ⟨4, []⟩, ⟨5, []⟩]))).map
    (fun t => (t.reg 1, t.reg 2, t.rsps)) = some (0x14#8, 0x12#8, [0x00001412#32]) := by decide +kernel
theorem test_interp : regAndResponse (exec (.interp 3 0) (withSlots [⟨1, [0xD2#8]⟩, ⟨2, [0x26#8]⟩])) 3 =
    some (0x77#8, some 0x00000077#32) := by decide +kernel
theorem test_interp_duplicate_x : response (exec (.interp 3 0) (withSlots [⟨1, [0xD2#8]⟩, ⟨1, [0x26#8]⟩])) =
    some (some 0x07000000#32) := by decide +kernel
theorem test_recover : (next? (exec .recover (withSlots [⟨2, [0xF9#8, 0x08#8, 0x4A#8]⟩, ⟨4, [0x01#8, 0x85#8, 0x16#8]⟩,
      ⟨5, [0x32#8, 0xF2#8, 0x25#8]⟩]))).map (fun t => (t.secv, t.sec, t.rsps)) =
    some (true, [0x53#8, 0x65#8, 0x63#8], [0x00000003#32]) := by decide +kernel
theorem test_recover_size_mismatch : response (exec .recover (withSlots [⟨1, [0xD2#8]⟩, ⟨2, []⟩])) = some (some 0x05000000#32) := by
  decide +kernel

-- 44_system.md R210, R211, R212
theorem test_nop : (next? (exec .nop { regs21 with last := 6#8 })).map (fun t => (t.last, t.rsps)) =
    some (0#8, [0x00000000#32]) := by decide +kernel
theorem test_rdcsr_status : (next? (exec (.rdcsr 1) { withSecret [] [] with last := 6#8, fltmask := 0x0040#16 })).map
    (fun t => (t.last, t.rsps)) = some (0#8, [0x00000106#32]) := by decide +kernel
theorem test_rdcsr_unassigned : response (exec (.rdcsr 0x06) regs21) = some (some 0x09000000#32) := by decide +kernel
theorem test_sreset : (next? (exec .sreset { regs21 with last := 6#8, fltmask := 0x0040#16, secv := true, sec := [1] })).map
    (fun t => (t.reg 1, t.fltmask, t.secv, t.sec, t.rsps)) = some (0x00#8, 0x0000#16, false, [], [0x00000000#32]) := by decide +kernel

-- R73: a word with a reserved bit (95_test_vectors.md 2.1, last line); 70_reset_and_hazards.md R260: hard reset
theorem test_step_illegal : (next? (step (State.start 8 [.command 0x04000100#32] []))).map
    (fun t => (t.last, t.fltmask, t.rsps, t.host)) = some (9#8, 0x0200#16, [0x09000000#32], []) := by decide +kernel
theorem test_step_hard_reset : (next? (step { regs21 with host := [.hardReset 1], rnd := [1, 2], held := some (.ldcr 0) })).map
    (fun t => (t.reg 1, t.rnd, t.held, t.rsps)) = some (0x00#8, [2], none, []) := by decide +kernel
theorem test_fetch : (next? (step (State.reset.withFetchWord 32 0x10105700))).map (fun t => (t.reg 1, t.rsps)) =
    some (0x57#8, [0x00000057#32]) := by decide +kernel

/-! ## Witnesses: for each statement with hypotheses, a state and operands that meet them together, clause by clause -/

/-- A state of capacity 8 with this next act of the host. -/
def withHost (a : HostAct) : State := State.start 8 [a] []

/-- The two shares of test_interp. -/
def twoShares : State := withSlots [⟨1, [0xD2#8]⟩, ⟨2, [0x26#8]⟩]

/-- A secret of one byte and draws enough for threshold 3. -/
def oneSecret : State := withSecret [0x77#8] [0xA5#8, 0x3C#8]

theorem legal_start : (State.start 8 [] []).Inv := by constructor <;> simp [State.start, State.reset]

theorem witness_DecodeInvertsEncode : (Instr.lbasis 15 0 15).wf = true ∧ (Instr.shrd 15 15 0xFFFF#16).wf = true := by decide

theorem witness_EncodeInvertsDecode : decode 0x2DFFFFFF#32 = .ok (.shrd 15 15 0xFFFF#16) := by decide

theorem witness_MaskAndMatchIsTheDecodeTest :
    opcodeTable.any (fun row => decide (0x38120000#32 &&& row.mask = row.pattern ∧ row.op = 0x38#8)) = true ∧
    faField 0x38120000#32 ≠ fbField 0x38120000#32 := by decide

/-- An unassigned opcode (the last of all), a reserved bit, equal destinations. -/
theorem witness_IllegalWordFaultsAndChangesNothingElse :
    (withHost (.command 0xFF000000#32)).host = [.command 0xFF000000#32] ∧ (withHost (.command 0xFF000000#32)).held = none ∧
    ¬ isCommandWord 0xFF000000#32 ∧ ¬ isCommandWord 0x00000001#32 ∧ ¬ isCommandWord 0x38110000#32 ∧ isCommandWord 0x38120000#32 := by
  unfold isCommandWord
  decide

/-- The ends of the opcode ranges of R77. -/
theorem witness_unassignedOp : unassignedOp 0x06 ∧ unassignedOp 0x0F ∧ ¬ unassignedOp 0x05 ∧ ¬ unassignedOp 0x10 ∧
    unassignedOp 0x7D ∧ ¬ unassignedOp 0x7E ∧ ¬ unassignedOp 0x7F ∧ unassignedOp 0x80 ∧ unassignedOp 0xFF := by
  simp [unassignedOp]

theorem witness_StepRunsTheDecodedCommand : (withHost (.command 0x7F000000#32)).host = [.command 0x7F000000#32] ∧
    (withHost (.command 0x7F000000#32)).held = none ∧ decode 0x7F000000#32 = .ok .sreset := by decide

theorem witness_FetchWordIsTheNextCommand : decodeTableWord 32 0x7F000000 = some .sreset ∧ decodeTableWord 0 0 = some .nop := by
  decide

theorem witness_IdleCoreRetainsItsState : (State.start 8 [] []).host = [] ∧ (State.start 8 [] []).held = none := by decide

/-- The waiting and the answering case of a command. -/
theorem witness_EveryCommandAnswersOnceOrHolds :
    (∃ t, exec (.ldcr 0) (State.start 8 [] []) = .next t ∧ t.held = some (.ldcr 0)) ∧
    (∃ t, exec .nop (State.start 8 [] []) = .next t ∧ t.rsps = [0#32]) := ⟨⟨_, rfl, rfl⟩, ⟨_, rfl, rfl⟩⟩

theorem witness_LastIsTheCodeOfTheResponse : ∃ t, exec .recover (State.start 8 [] []) = .next t ∧ t.rsps = [] ++ [0x01000000#32] :=
  ⟨_, rfl, by decide⟩

theorem witness_FaultingCommandChangesOnlyTheFaultRecord : ∃ t, exec .recover (State.start 8 [] []) = .next t ∧
    t.rsps = [] ++ [0x01000000#32] ∧ (0x01000000#32 : Word).extractLsb' 24 8 ≠ 0#8 := ⟨_, rfl, by decide, by decide⟩

/-- Bit 1 set in a legal state, before this act of the host. -/
def faultedBefore (a : HostAct) : State := { withHost a with fltmask := 0x0002#16 }

theorem legal_faultedBefore (a : HostAct) : (faultedBefore a).Inv := by
  constructor <;> simp [faultedBefore, withHost, State.start, State.reset]

/-- A set bit that a hard reset, and one that SRESET, returns to 0. -/
theorem witness_FaultMaskIsSticky :
    ((faultedBefore (.hardReset 0)).Inv ∧ (faultedBefore (.hardReset 0)).fltmask.getLsbD 1 = true ∧
      ∃ t, step (faultedBefore (.hardReset 0)) = .next t ∧ t.fltmask.getLsbD 1 = false) ∧
    ((faultedBefore (.command 0x7F000000#32)).Inv ∧ (faultedBefore (.command 0x7F000000#32)).fltmask.getLsbD 1 = true ∧
      ∃ t, step (faultedBefore (.command 0x7F000000#32)) = .next t ∧ t.fltmask.getLsbD 1 = false) :=
  ⟨⟨legal_faultedBefore _, by decide, _, rfl, by decide⟩, ⟨legal_faultedBefore _, by decide, _, rfl, by decide⟩⟩

theorem witness_ClearFaultMaskMeansNoFault : ∃ t, exec .nop (State.start 8 [] []) = .next t ∧ Instr.nop ≠ .sreset :=
  ⟨_, rfl, by decide⟩

/-- Two words, one of them illegal, at the least capacity. -/
theorem witness_EveryCommandOfARunIsAnswered : 1 ≤ 1 ∧ 1 ≤ 65535 ∧
    [0x00000000#32, 0x06000000#32].length * (1 * 15) ≤ (List.replicate 30 0x00#8).length := by decide

theorem witness_ResetLeavesTheStatedValues : (∃ t, exec .sreset regs21 = .next t) ∧
    (withHost (.hardReset 3)).host = [.hardReset 3] ∧ ∃ t, step (withHost (.hardReset 3)) = .next t := ⟨⟨_, rfl⟩, rfl, ⟨_, rfl⟩⟩

theorem witness_HardResetAbandonsTheCommandInProgress :
    { withHost (.hardReset 1) with held := some (.ldcr 0) }.host = .hardReset 1 :: [] := by decide

theorem witness_ResetStateIsLegal : 1 ≤ 1 ∧ 1 ≤ 65535 ∧ 1 ≤ 65535 ∧ 65535 ≤ 65535 := by decide

theorem witness_EveryStepKeepsAStateLegal : (State.start 8 [] []).Inv ∧ ∃ t, step (State.start 8 [] []) = .next t :=
  ⟨legal_start, ⟨_, rfl⟩⟩

theorem witness_ReachableStatesAreLegal : 1 ≤ 8 ∧ 8 ≤ 65535 ∧
    ∃ t, Reaches (State.start 8 [.command 0x20000000#32] []) t ∧ t.secv = true :=
  ⟨by decide, by decide, _, .tail (.refl _) rfl, by decide⟩

theorem witness_ScalarRegistersChangeOnlyAsDestinations : ∃ t, exec (.gfmul 3 1 2) regs21 = .next t ∧
    writesReg (.gfmul 3 1 2) 1 = false := ⟨_, rfl, by decide⟩

/-- Each of the three buffers does change under a command the rules name. -/
theorem witness_BuffersChangeOnlyByTheirCommands :
    (∃ t, exec (.ldci 0 1) (State.start 8 [] []) = .next t ∧ t.c ≠ (State.start 8 [] []).c) ∧
    (∃ t, exec .secnew oneSecret = .next t ∧ t.sec ≠ oneSecret.sec) ∧
    (∃ t, exec .shnew twoShares = .next t ∧ t.slots ≠ twoShares.slots) :=
  ⟨⟨_, rfl, by decide⟩, ⟨_, rfl, by decide⟩, ⟨_, rfl, by decide⟩⟩

theorem witness_ContainersAreAppendOnly : ∃ t, exec (.shpushi 1 7) twoShares = .next t ∧ Instr.shpushi 1 7 ≠ .sreset ∧
    twoShares.secv = false ∧ twoShares.shv = true ∧ Instr.shpushi 1 7 ≠ .shnew ∧ (∀ k n, Instr.shpushi 1 7 ≠ .split k n) ∧
    twoShares.slots[1]? = some ⟨2, [0x26#8]⟩ := ⟨_, rfl, by decide, by decide, by decide, by decide, by simp, by decide⟩

/-- LDCR and SPLIT that succeed, a SPLIT that faults, an LDCR that waits, and a command that is neither. -/
theorem witness_OnlyLdcrAndSplitDraw :
    (∃ t, exec (.ldcr 0) oneSecret = .next t ∧ t.rsps = [] ++ [0#32] ∧ t.rnd ≠ oneSecret.rnd) ∧
    (∃ t, exec (.split 3 3) oneSecret = .next t ∧ t.rsps = [] ++ [0x00000003#32] ∧ t.rnd = []) ∧
    (∃ t, exec (.split 0 3) oneSecret = .next t ∧ t.rsps = [] ++ [0x03000000#32]) ∧
    (∃ t, exec (.ldcr 0) regs21 = .next t ∧ t.rsps = regs21.rsps) ∧
    (∀ k, Instr.nop ≠ .ldcr k) ∧ (∀ k n, Instr.nop ≠ .split k n) :=
  ⟨⟨_, rfl, by decide, by decide⟩, ⟨_, rfl, by decide, by decide⟩, ⟨_, rfl, by decide⟩, ⟨_, rfl, rfl⟩, by simp, by simp⟩

theorem witness_CoefficientFileHasNoReadPath : (∀ rd ra k, Instr.split 3 3 ≠ .eval rd ra k) ∧
    ∃ t, exec (.split 3 3) oneSecret = .next t := ⟨by simp, _, rfl⟩

theorem witness_HeldCommandWaitsAndThenCompletes : (withHost (.command 0)).held = none ∧
    (∃ t, exec (.ldcr 0) (withHost (.command 0)) = .next t ∧ t.held = some (.ldcr 0)) ∧
    ∀ lost rest, (withHost (.command 0)).host ≠ .hardReset lost :: rest := ⟨rfl, ⟨_, rfl, rfl⟩, by simp [withHost, State.start]⟩

theorem witness_UndrawnBytesAreNotLookedAt : ∃ t, exec (.ldcr 0) oneSecret = .next t ∧ t.held = oneSecret.held ∧
    oneSecret.held = none := ⟨_, rfl, rfl, rfl⟩

/-- The first and the last slot number, open and closed; the ends of the unassigned CSR numbers. -/
theorem witness_SystemCommandsAnswer :
    twoShares.slots[(0 : Fin 16).val]? = some ⟨1, [0xD2#8]⟩ ∧ (withSlots (List.replicate 16 ⟨1, []⟩)).slots[(15 : Fin 16).val]? = some ⟨1, []⟩ ∧
    (State.start 8 [] []).slots.length ≤ (0 : Fin 16).val ∧ twoShares.slots.length ≤ (15 : Fin 16).val ∧
    5 < (0x06#8 : Byte).toNat ∧ (0x0F#8 : Byte).toNat < 16 ∧ 31 < (0x20#8 : Byte).toNat ∧ 31 < (0xFF#8 : Byte).toNat := by decide

theorem witness_MultiplicationObeysTheFieldLaws : gmul 0x00#8 0x57#8 = 0x00#8 := by decide +kernel

theorem witness_InverseIsUniqueAndBothConstructionsAgree : (0x57#8 : Byte) ≠ 0x00#8 ∧ gmul 0x57#8 0xBF#8 = 0x01#8 := by
  decide +kernel

theorem witness_DivisionUndoesMultiplication : (0x83#8 : Byte) ≠ 0x00#8 ∧ gmul 0x57#8 0x83#8 = 0xC1#8 := by decide +kernel

theorem witness_PowerIsTheRepeatedProduct : 1 ≤ (0x01#8 : Byte).toNat ∧ (0xFF#8 : Byte) ≠ 0x00#8 := by decide

theorem witness_GeneratorGivesLogarithms : (0x02#8 : Byte) ≠ 0x00#8 ∧ 0 < 255 ∧ 254 < 255 := by decide

theorem witness_DivideAndInvertAnswerOrFault : regs21.r[(2 : Fin 16)] ≠ 0x00#8 ∧ regs21.r[(0 : Fin 16)] = 0x00#8 := by decide

theorem witness_CoefficientLoadsAnswer : oneSecret.rnd = 0xA5#8 :: [0x3C#8] ∧ twoShares.rnd = [] := by decide

/-- Room for one byte, the full buffer, and the null one; both forms. -/
theorem witness_SecretPushAppendsOneByte :
    (Instr.secpush 1 = .secpush 1 ∧ (0x57#8 : Byte) = regs21.r[(1 : Fin 16)]) ∧ Instr.secpushi 7 = .secpushi 7 ∧
    ((withSecret [1, 2, 3, 4, 5, 6, 7] []).secv = true ∧ (withSecret [1, 2, 3, 4, 5, 6, 7] []).sec.length ≠ 8) ∧
    regs21.secv = false ∧ (withSecret [1, 2, 3, 4, 5, 6, 7, 8] []).sec.length = (withSecret [1, 2, 3, 4, 5, 6, 7, 8] []).lmax := by
  decide

/-- The last byte and the first place past it. -/
theorem witness_SecretReadAnswersOrFaults : oneSecret.secv = true ∧ oneSecret.sec[(0#16 : Half).toNat]? = some 0x77#8 ∧
    (State.start 8 [] []).secv = false ∧ oneSecret.sec.length ≤ (1#16 : Half).toNat := by decide

/-- Fifteen slots open, sixteen, and no collection; both forms. -/
theorem witness_OpeningASlotAnswersItsNumber :
    (Instr.shopen 1 = .shopen 1 ∧ (0x57#8 : Byte) = regs21.r[(1 : Fin 16)]) ∧ Instr.shopeni 0 = .shopeni 0 ∧
    (withSlots (List.replicate 15 ⟨1, []⟩)).shv = true ∧ (withSlots (List.replicate 15 ⟨1, []⟩)).slots.length ≠ 16 ∧
    regs21.shv = false ∧ (withSlots (List.replicate 16 ⟨1, []⟩)).slots.length = 16 := by decide

/-- A slot with room, a full one, one that is not open, and no collection; both forms. -/
theorem witness_SharePushAppendsOneByte :
    (Instr.shpush 1 1 = .shpush 1 1 ∧ (0x57#8 : Byte) = regs21.r[(1 : Fin 16)]) ∧ Instr.shpushi 1 7 = .shpushi 1 7 ∧
    twoShares.shv = true ∧ twoShares.slots[(1 : Fin 16).val]? = some ⟨2, [0x26#8]⟩ ∧ [0x26#8].length ≠ twoShares.lmax ∧
    regs21.shv = false ∧ twoShares.slots.length ≤ (2 : Fin 16).val ∧
    (withSlots [⟨1, [1, 2, 3, 4, 5, 6, 7, 8]⟩]).slots[(0 : Fin 16).val]? = some ⟨1, [1, 2, 3, 4, 5, 6, 7, 8]⟩ ∧
    ([1, 2, 3, 4, 5, 6, 7, 8] : List Byte).length = (withSlots []).lmax := by decide

theorem witness_ShareReadsAnswerOrFault : twoShares.shv = true ∧ twoShares.slots[(1 : Fin 16).val]? = some ⟨2, [0x26#8]⟩ ∧
    [0x26#8][(0#16 : Half).toNat]? = some 0x26#8 ∧ [0x26#8].length ≤ (1#16 : Half).toNat ∧ regs21.shv = false ∧
    twoShares.slots.length ≤ (2 : Fin 16).val := by decide

/-- The first and the last slot number. -/
theorem witness_PointOpensOneShare : (withSlots []).shv = true ∧ (withSlots []).slots.length = (0 : Fin 16).val ∧
    (withSlots (List.replicate 15 ⟨1, []⟩)).slots.length = (15 : Fin 16).val ∧ 1 ≤ (withSlots []).lmax := by decide

/-- The thresholds 1 and 16, 0 and 17, a point that is not zero and one that is. -/
theorem witness_EvalWritesThePolynomialsValue : 1 ≤ (1#8 : Byte).toNat ∧ (16#8 : Byte).toNat ≤ 16 ∧ regs21.r[(1 : Fin 16)] ≠ 0x00#8 ∧
    (0#8 : Byte).toNat = 0 ∧ 16 < (17#8 : Byte).toNat ∧ regs21.r[(0 : Fin 16)] = 0x00#8 := by decide

/-- One coefficient, and a threshold of 16 of 16 shares with exactly the draws it needs. -/
theorem witness_SplitSharesAreThePolynomialsValues : oneSecret.secv = true ∧ oneSecret.sec ≠ [] ∧ 1 ≤ (3#8 : Byte).toNat ∧
    (3#8 : Byte).toNat ≤ (16#8 : Byte).toNat ∧ (16#8 : Byte).toNat ≤ 16 ∧
    oneSecret.sec.length * ((3#8 : Byte).toNat - 1) ≤ oneSecret.rnd.length ∧
    (withSecret [1] (List.replicate 15 7)).sec.length * ((16#8 : Byte).toNat - 1) ≤
      (withSecret [1] (List.replicate 15 7)).rnd.length := by decide

/-- Null, empty, threshold 0 and above the total, 17 shares, and one draw too few. -/
theorem witness_SplitFaultsInOrder : regs21.secv = false ∧ ((withSecret [] []).secv = true ∧ (withSecret [] []).sec = []) ∧
    (oneSecret.secv = true ∧ oneSecret.sec ≠ []) ∧ (0#8 : Byte).toNat = 0 ∧ (3#8 : Byte).toNat < (4#8 : Byte).toNat ∧
    (17#8 : Byte).toNat ≤ (17#8 : Byte).toNat ∧ 16 < (17#8 : Byte).toNat ∧
    oneSecret.rnd.length < oneSecret.sec.length * ((4#8 : Byte).toNat - 1) := by decide

theorem witness_ThresholdOneCopiesTheSecret : oneSecret.secv = true ∧ oneSecret.sec ≠ [] ∧ 1 ≤ (1#8 : Byte).toNat ∧
    (16#8 : Byte).toNat ≤ 16 := by decide

theorem usable_twoShares : usablePoints (twoShares.slots.map Slot.x) := ⟨by decide, by decide⟩

theorem witness_LbasisWritesNumeratorAndDenominator : (1 : Fin 16) ≠ 2 ∧ twoShares.shv = true ∧
    (1 : Fin 16).val < twoShares.slots.length ∧ usablePoints (twoShares.slots.map Slot.x) :=
  ⟨by decide, by decide, by decide, usable_twoShares⟩

theorem witness_InterpWritesTheRecoveryFormula : twoShares.shv = true ∧ twoShares.slots ≠ [] ∧
    (∀ sl ∈ twoShares.slots, (0#16 : Half).toNat < sl.vals.length) ∧ usablePoints (twoShares.slots.map Slot.x) :=
  ⟨by decide, by decide, by decide, usable_twoShares⟩

/-- Length 1, and slots that hold nothing. -/
theorem witness_RecoverReplacesTheSecret : twoShares.shv = true ∧ twoShares.slots ≠ [] ∧
    (∀ sl ∈ twoShares.slots, sl.vals.length = 1) ∧ usablePoints (twoShares.slots.map Slot.x) ∧
    (∀ sl ∈ (withSlots [⟨1, []⟩]).slots, sl.vals.length = 0) := ⟨by decide, by decide, by decide, usable_twoShares, by decide⟩

/-- No collection, no slot, a point number past the end, a position past a slot's end, unequal lengths, x = 0, equal x. -/
theorem witness_LagrangeCommandsFaultInOrder : (1 : Fin 16) ≠ 2 ∧ regs21.shv = false ∧ (withSlots []).slots = [] ∧
    twoShares.slots.length ≤ (2 : Fin 16).val ∧ (∃ sl ∈ twoShares.slots, sl.vals.length ≤ (1#16 : Half).toNat) ∧
    (∃ sl ∈ (withSlots [⟨1, [1]⟩, ⟨2, []⟩]).slots, ∃ sl' ∈ (withSlots [⟨1, [1]⟩, ⟨2, []⟩]).slots, sl.vals.length ≠ sl'.vals.length) ∧
    0x00#8 ∈ (withSlots [⟨0, [1]⟩]).slots.map Slot.x ∧
    (0x00#8 ∉ (withSlots [⟨1, [1]⟩, ⟨1, [2]⟩]).slots.map Slot.x ∧ ¬ ((withSlots [⟨1, [1]⟩, ⟨1, [2]⟩]).slots.map Slot.x).Nodup) ∧
    (0 : Fin 16).val < (withSlots [⟨0, [1]⟩]).slots.length ∧ (∀ sl ∈ (withSlots [⟨0, [1]⟩]).slots, (0#16 : Half).toNat < sl.vals.length) ∧
    (∀ sl ∈ (withSlots [⟨0, [1]⟩]).slots, ∀ sl' ∈ (withSlots [⟨0, [1]⟩]).slots, sl.vals.length = sl'.vals.length) := by decide

theorem witness_NoDivisionByZeroInsideTheLagrangeCommands : 1 < [0x01#8, 0x02#8].length ∧ usablePoints [0x01#8, 0x02#8] ∧
    ∃ t, exec (.gfinv 0 0) regs21 = .next t ∧ t.rsps = [] ++ [0x06000000#32] :=
  ⟨by decide, ⟨by decide, by decide⟩, _, rfl, by decide⟩

theorem witness_OnePointReturnsItsOwnByte : (withSlots [⟨0xFF#8, [0x77#8]⟩]).slots = [⟨0xFF#8, [0x77#8]⟩] ∧ (0xFF#8 : Byte) ≠ 0x00#8 ∧
    [0x77#8][0]? = some 0x77#8 := by decide

theorem witness_OrderOfSlotsIsImmaterial : usablePoints (twoShares.slots.map Slot.x) ∧
    [⟨2, [0x26#8]⟩, ⟨1, [0xD2#8]⟩].Perm twoShares.slots := ⟨usable_twoShares, List.Perm.swap _ _ _⟩

/-- A split of threshold 2 of 3, and its shares 2 and 3 loaded in the other order. -/
theorem witness_SplitThenRecoverRestoresTheSecret : ∃ t, exec (.split 2 3) (withSecret [0x77#8] [0xA5#8]) = .next t ∧
    (withSecret [0x77#8] [0xA5#8]).sec.length * ((2#8 : Byte).toNat - 1) ≤ (withSecret [0x77#8] [0xA5#8]).rnd.length ∧
    (2#8 : Byte).toNat ≤ (withSlots [⟨3, [0x83#8]⟩, ⟨2, [0x26#8]⟩]).slots.length ∧
    (withSlots [⟨3, [0x83#8]⟩, ⟨2, [0x26#8]⟩]).slots.Nodup ∧
    (∀ sl ∈ (withSlots [⟨3, [0x83#8]⟩, ⟨2, [0x26#8]⟩]).slots, sl ∈ t.slots) ∧
    (withSecret [0x77#8] [0xA5#8]).sec[(0#16 : Half).toNat]? = some 0x77#8 :=
  ⟨_, rfl, by decide, by decide, by decide, by decide +kernel, by decide⟩

/-- A split of threshold 3 (95_test_vectors.md 2.3: f(01) = EE, f(02) = D6) and two of its shares. -/
theorem witness_UnderThresholdRecoveryIsNotDetected : ∃ t, exec (.split 3 3) oneSecret = .next t ∧
    oneSecret.sec.length * 2 ≤ oneSecret.rnd.length ∧ ⟨1, [0xEE#8]⟩ ∈ t.slots ∧ ⟨2, [0xD6#8]⟩ ∈ t.slots ∧
    (⟨1, [0xEE#8]⟩ : Slot) ≠ ⟨2, [0xD6#8]⟩ ∧ (0#16 : Half).toNat < oneSecret.sec.length ∧
    (withSlots [⟨1, [0xEE#8]⟩, ⟨2, [0xD6#8]⟩]).shv = true ∧ oneSecret.secv = true ∧ oneSecret.sec ≠ [] :=
  ⟨_, rfl, by decide, by decide +kernel, by decide +kernel, by decide, by decide, by decide, by decide, by decide⟩

theorem witness_BelowThresholdEverySecretIsExplainedOnce : usablePoints [0x01#8, 0xFF#8] ∧
    [0xD2#8, 0x00#8].length = [0x01#8, 0xFF#8].length := ⟨⟨by decide, by decide⟩, by decide⟩

end Sys2Proof.Tests
end

/-! # Proofs of the statements about the state (10_state.md)

First what every command keeps, then the invariant of R39, then the coefficient file and the entropy stream, each as a lemma about
`effect` carried to `exec` by the inversion lemma of Laws/Exec; the settled statements stand at the end. -/

namespace Sys2Proof.Machine

/-! ## What a command's answer can be -/

/-- The registers and the buffers of two states agree (10_state.md R21 to R31). -/
structure SameContents (s t : State) : Prop where
  r : t.r = s.r
  c : t.c = s.c
  secv : t.secv = s.secv
  sec : t.sec = s.sec
  shv : t.shv = s.shv
  slots : t.slots = s.slots

theorem SameContents.raiseFault (s : State) (f : FaultCode) : SameContents s (s.raiseFault f) := ⟨rfl, rfl, rfl, rfl, rfl, rfl⟩

theorem SameContents.hold (s : State) (i : Instr) : SameContents s (s.hold i) := ⟨rfl, rfl, rfl, rfl, rfl, rfl⟩

theorem SameContents.succeed (s : State) (v : Half) : SameContents s (s.succeed v) := ⟨rfl, rfl, rfl, rfl, rfl, rfl⟩

/-- A command leaves registers and buffers as they are, or leaves them as its writes do. -/
theorem exec_contents {i : Instr} {s t : State} (h : exec i s = .next t) :
    SameContents s t ∨ SameContents (effect s i).1 t := by
  obtain ⟨f, -, rfl⟩ | ⟨-, -, rfl⟩ | ⟨-, -, rfl⟩ := exec_next_cases h
  · exact .inl (.raiseFault s f)
  · exact .inl (.hold s i)
  · exact .inr (.succeed _ _)

@[simp] theorem responseCode_okResponse (v : Half) : responseCode (okResponse v) = 0x00#8 := responseCode_responseWord _ v

@[simp] theorem responseCode_faultResponse (f : FaultCode) : responseCode (faultResponse f) = f.code :=
  responseCode_responseWord f.code _

/-- A command that answers faults with the answer's code, or does its writes and answers with code 0. -/
theorem exec_response_cases {i : Instr} {s t : State} {q : Word} (h : exec i s = .next t) (hq : t.rsps = s.rsps ++ [q]) :
    (∃ f, responseCode q = f.code ∧ t = s.raiseFault f) ∨
    (responseCode q = 0x00#8 ∧ drawsOf s i ≤ s.rnd.length ∧ t = (effect s i).1.succeed (effect s i).2) := by
  obtain ⟨f, -, rfl⟩ | ⟨-, -, rfl⟩ | ⟨-, hd, rfl⟩ := exec_next_cases h
  · obtain rfl : faultResponse f = q := by simpa using hq
    exact .inl ⟨f, responseCode_faultResponse f, rfl⟩
  · simp at hq
  · obtain rfl : okResponse (effect s i).2 = q := by simpa [(effect_frame s i).1] using hq
    exact .inr ⟨responseCode_okResponse _, hd, rfl⟩

/-- A command that gives no answer waits. -/
theorem exec_no_response {i : Instr} {s t : State} (h : exec i s = .next t) (hq : t.rsps = s.rsps) : t = s.hold i := by
  obtain ⟨f, -, rfl⟩ | ⟨-, -, rfl⟩ | ⟨-, -, rfl⟩ := exec_next_cases h
  · simp at hq
  · rfl
  · simp [(effect_frame s i).1] at hq

/-! ## The fault record -/

theorem FaultCode.bit_ne_zero (f : FaultCode) : f.bit ≠ 0#16 := by cases f <;> decide

/-- The bit of a fault is recorded. -/
theorem State.raiseFault_records (s : State) (f : FaultCode) : ¬ (s.raiseFault f).noFaultRecorded := by
  simp [State.noFaultRecorded, f.bit_ne_zero]

theorem faultResponse_ne_ok (f : FaultCode) (v : Half) : faultResponse f ≠ v.setWidth 32 := by
  intro h
  rw [← okResponse_eq] at h
  exact f.code_ne_zero (by simpa using congrArg responseCode h)

/-- A fault leaves every bit of `FLTMASK` that is set (10_state.md R33). -/
theorem State.raiseFault_fltmask_keeps {s : State} {b : Nat} (f : FaultCode) (hb : s.fltmask.getLsbD b = true) :
    (s.raiseFault f).fltmask.getLsbD b = true := by
  simp [hb]

/-- So does every command but SRESET. -/
theorem exec_fltmask_keeps {i : Instr} {s t : State} {b : Nat} (h : exec i s = .next t) (hi : i ≠ .sreset)
    (hb : s.fltmask.getLsbD b = true) : t.fltmask.getLsbD b = true := by
  obtain ⟨-, -, -, -, -, hmask⟩ := effect_frame s i
  obtain ⟨f, -, rfl⟩ | ⟨-, -, rfl⟩ | ⟨-, -, rfl⟩ := exec_next_cases h
  · exact s.raiseFault_fltmask_keeps f hb
  · exact hb
  · rwa [State.succeed_fltmask, hmask hi]

/-! ## What each command writes -/

theorem State.setReg_r_other (s : State) {j : Fin 16} (rd : Fin 16) (v : Byte) (h : j ≠ rd) : (s.setReg rd v).r[j] = s.r[j] :=
  Vector.getElem_set_ne rd.isLt j.isLt fun he => h (Fin.ext he.symm)

/-- A command's writes leave every scalar register that it does not name as a destination (10_state.md R22). -/
theorem effect_r {i : Instr} {j : Fin 16} (s : State) (h : writesReg i j = false) : (effect s i).1.r[j] = s.r[j] := by
  cases i with
  | gfadd rd | gfmul rd | gfdiv rd | gfinv rd | gfpow rd | ldi rd | mov rd | secrd rd | shrd rd | shx rd | eval rd | interp rd =>
    exact s.setReg_r_other rd _ (by simpa [writesReg] using h)
  | lbasis rn rd =>
    obtain ⟨hn, hd⟩ : j ≠ rn ∧ j ≠ rd := by simpa [writesReg] using h
    exact (State.setReg_r_other _ rd _ hd).trans (s.setReg_r_other rn _ hn)
  | sreset => simp [writesReg] at h
  | _ => rfl

/-- The commands whose writes reach the coefficient file (10_state.md R27). -/
theorem effect_c (s : State) (i : Instr) :
    (effect s i).1.c = s.c ∨ (∃ k ra, i = .ldc k ra) ∨ (∃ k imm, i = .ldci k imm) ∨ (∃ k, i = .ldcr k) ∨
      (∃ k n, i = .split k n) ∨ i = .sreset := by
  cases i with
  | ldc | ldci | ldcr | split | sreset => simp
  | _ => exact .inl rfl

/-- The commands whose writes reach the secret bytes (10_state.md R28). -/
theorem effect_sec (s : State) (i : Instr) :
    (effect s i).1.sec = s.sec ∨ i = .secnew ∨ (∃ ra, i = .secpush ra) ∨ (∃ imm, i = .secpushi imm) ∨ i = .recover ∨
      i = .sreset := by
  cases i with
  | secnew | secpush | secpushi | recover | sreset => simp
  | _ => exact .inl rfl

/-- The commands whose writes reach the share slots (10_state.md R31). -/
theorem effect_slots (s : State) (i : Instr) :
    (effect s i).1.slots = s.slots ∨ i = .shnew ∨ (∃ ra, i = .shopen ra) ∨ (∃ imm, i = .shopeni imm) ∨
      (∃ j ra, i = .shpush j ra) ∨ (∃ j imm, i = .shpushi j imm) ∨ (∃ k n, i = .split k n) ∨ i = .sreset := by
  cases i with
  | shnew | shopen | shopeni | shpush | shpushi | split | sreset => simp
  | _ => exact .inl rfl

/-- No command but SRESET returns an existence bit to 0 (10_state.md R29). -/
theorem effect_secv {i : Instr} (s : State) (hi : i ≠ .sreset) (h : s.secv = true) : (effect s i).1.secv = true := by
  cases i with
  | sreset => exact absurd rfl hi
  | secnew | recover => rfl
  | _ => exact h

theorem effect_shv {i : Instr} (s : State) (hi : i ≠ .sreset) (h : s.shv = true) : (effect s i).1.shv = true := by
  cases i with
  | sreset => exact absurd rfl hi
  | shnew | split => rfl
  | _ => exact h

/-- Every slot of the first list is in the second under its number, with its point and its bytes first (10_state.md R31). -/
def SlotsExtend (before after : List Slot) : Prop :=
  ∀ (j : Nat) (sl : Slot), before[j]? = some sl → ∃ sl', after[j]? = some sl' ∧ sl'.x = sl.x ∧ sl.vals <+: sl'.vals

theorem SlotsExtend.refl (slots : List Slot) : SlotsExtend slots slots := fun _ sl h => ⟨sl, h, rfl, List.prefix_rfl⟩

theorem SlotsExtend.append (slots more : List Slot) : SlotsExtend slots (slots ++ more) := by
  intro j sl h
  obtain ⟨hj, -⟩ := List.getElem?_eq_some_iff.1 h
  exact ⟨sl, by rw [List.getElem?_append_left hj, h], rfl, List.prefix_rfl⟩

theorem SlotsExtend.modify_push (slots : List Slot) (k : Nat) (v : Byte) :
    SlotsExtend slots (slots.modify k fun sl => sl.push v) := by
  intro j sl h
  rw [List.getElem?_modify, h]
  by_cases hk : k = j
  · exact ⟨sl.push v, by simp [hk], rfl, List.prefix_append _ _⟩
  · exact ⟨sl, by simp [hk], rfl, List.prefix_rfl⟩

/-- Outside SHNEW, SPLIT and SRESET the slots only grow. -/
theorem effect_slotsExtend {i : Instr} (s : State) (hr : i ≠ .sreset) (hn : i ≠ .shnew) (hs : ∀ k n, i ≠ .split k n) :
    SlotsExtend s.slots (effect s i).1.slots := by
  cases i with
  | sreset => exact absurd rfl hr
  | shnew => exact absurd rfl hn
  | split k n => exact absurd rfl (hs k n)
  | shopen | shopeni => exact .append _ _
  | shpush j | shpushi j => exact .modify_push _ j _
  | _ => exact .refl _

/-! ## The invariant of R39

One lemma per update: what must hold before it for the state after it to be legal. -/

theorem State.Inv.setReg {s : State} (h : s.Inv) (rd : Fin 16) (v : Byte) : (s.setReg rd v).Inv := { h with }

theorem State.Inv.setCoef {s : State} (h : s.Inv) (k : Fin 16) (v : Byte) : (s.setCoef k v).Inv := { h with }

theorem State.Inv.withHost {s : State} (h : s.Inv) (acts : List HostAct) : { s with host := acts }.Inv := { h with }

theorem State.Inv.withRnd {s : State} (h : s.Inv) (bs : List Byte) : { s with rnd := bs }.Inv := { h with }

theorem State.Inv.notHeld {s : State} (h : s.Inv) : { s with held := none }.Inv := { h with held_draws := nofun }

theorem State.Inv.withSecret {s : State} (h : s.Inv) {bs : List Byte} (hb : bs.length ≤ s.lmax) :
    { s with secv := true, sec := bs }.Inv :=
  { h with null_secret_empty := nofun, seclen_le := hb }

theorem State.Inv.withSlots {s : State} (h : s.Inv) {slots : List Slot} (hn : slots.length ≤ 16)
    (hl : ∀ sl ∈ slots, sl.vals.length ≤ s.lmax) : { s with shv := true, slots := slots }.Inv :=
  { h with null_shares_empty := nofun, cnt_le := hn, slen_le := hl }

/-- The values of 10_state.md R38 are legal, whatever the state was. -/
theorem State.clear_inv {s : State} (hl : 1 ≤ s.lmax ∧ s.lmax ≤ 65535)
    (hh : ∀ i, s.held = some i → (∃ k, i = .ldcr k) ∨ (∃ k n, i = .split k n)) : s.clear.Inv where
  null_secret_empty _ := rfl
  null_shares_empty _ := rfl
  seclen_le := Nat.zero_le _
  cnt_le := Nat.zero_le _
  slen_le := nofun
  last_le := Nat.zero_le _
  fltmask_clear := BitVec.zero_and
  lmax_range := hl
  held_draws := hh

theorem State.Inv.clear {s : State} (h : s.Inv) : s.clear.Inv := State.clear_inv h.lmax_range h.held_draws

theorem State.Inv.hardReset {s : State} (h : s.Inv) (lost : Nat) : (s.hardReset lost).Inv :=
  { h.clear with held_draws := nofun }

theorem State.Inv.succeed {s : State} (h : s.Inv) (v : Half) : (s.succeed v).Inv := { h with last_le := Nat.zero_le _ }

theorem State.Inv.raiseFault {s : State} (h : s.Inv) (f : FaultCode) : (s.raiseFault f).Inv :=
  { h with last_le := f.code_le, fltmask_clear := fltmask_clear_or h.fltmask_clear f }

theorem State.Inv.hold {s : State} {i : Instr} (h : s.Inv) (hd : s.rnd.length < drawsOf s i) : (s.hold i).Inv := by
  refine { h with held_draws := fun i' hi' => ?_ }
  obtain rfl : i = i' := by simpa using hi'
  exact draws_of_hold hd

/-- `SLEN[j]` of any slot number is within the capacity. -/
theorem State.Inv.slen_le_lmax {s : State} (h : s.Inv) (j : Nat) : s.slen j ≤ s.lmax := by
  unfold State.slen
  cases hj : s.slots[j]? with
  | none => exact Nat.zero_le _
  | some sl => exact h.slen_le sl (List.mem_of_getElem? hj)

theorem State.slen_of_getElem? {s : State} {j : Nat} {sl : Slot} (h : s.slots[j]? = some sl) : s.slen j = sl.vals.length := by
  simp [State.slen, h]

/-- The append behind the checks of SECPUSH and SECPUSHI. -/
theorem State.Inv.append_sec {s : State} (h : s.Inv) (v : Byte) (hv : s.secv = true) (hl : s.seclen ≠ s.lmax) :
    (s.append .sec v).Inv := by
  have hlt : s.sec.length < s.lmax := lt_of_le_of_ne h.seclen_le hl
  exact { h with null_secret_empty := by simp [hv], seclen_le := by simpa using hlt }

/-- The opening behind the checks of SHOPEN and SHOPENI. -/
theorem State.Inv.openSlot {s : State} (h : s.Inv) (x : Byte) (hv : s.shv = true) (hn : s.cnt ≠ 16) : (s.openSlot x).Inv := by
  have hlt : s.slots.length < 16 := lt_of_le_of_ne h.cnt_le hn
  have hle : ∀ sl ∈ s.slots ++ [⟨x, []⟩], sl.vals.length ≤ s.lmax :=
    List.forall_mem_append.2 ⟨h.slen_le, by simp⟩
  exact { h with null_shares_empty := by simp [hv], cnt_le := by simpa using hlt, slen_le := hle }

/-- The append behind the checks of SHPUSH and SHPUSHI. -/
theorem State.Inv.append_sh {s : State} (h : s.Inv) (j : Nat) (v : Byte) (hv : s.shv = true) (hl : s.slen j ≠ s.lmax) :
    (s.append (.sh j) v).Inv := by
  have hle := modify_push_le (v := v) h.slen_le fun sl hj => (State.slen_of_getElem? hj).symm.trans_ne hl
  exact { h with null_shares_empty := by simp [hv], cnt_le := by simpa using h.cnt_le, slen_le := hle }

/-- A split of at most 16 shares: every slot it leaves is as long as the secret. -/
theorem State.Inv.splitWith {s : State} (h : s.Inv) (k : Nat) {n : Nat} (hn : n ≤ 16) (draws : List Byte) :
    (s.splitWith k n draws).Inv := by
  obtain ⟨hcnt, hlen⟩ := splitLoop_lengths k s.sec draws s.c (splitSlots n) 0 (by simp [splitSlots])
  have hslots := h.withSlots (slots := (splitLoop k s.sec draws s.c (splitSlots n)).2)
    (by rw [hcnt]; simpa [splitSlots] using hn)
    (fun sl hsl => by rw [hlen sl hsl, Nat.zero_add]; exact h.seclen_le)
  exact { hslots with }

/-! What the passed checks of a command say of the state. -/

theorem secPush_checks {s : State}
    (h : firstFault [(!s.secv, .nullInput), (decide (s.seclen = s.lmax), .capacity)] = none) :
    s.secv = true ∧ s.seclen ≠ s.lmax := by
  simpa using firstFault_eq_none.1 h

theorem shOpen_checks {s : State} (h : firstFault [(!s.shv, .nullInput), (decide (s.cnt = 16), .capacity)] = none) :
    s.shv = true ∧ s.cnt ≠ 16 := by
  simpa using firstFault_eq_none.1 h

theorem shPush_checks {s : State} {j : Nat}
    (h : firstFault [(!s.shv, .nullInput), (decide (s.cnt ≤ j), .addrRange), (decide (s.slen j = s.lmax), .capacity)] = none) :
    s.shv = true ∧ j < s.cnt ∧ s.slen j ≠ s.lmax := by
  simpa using firstFault_eq_none.1 h

/-- What SPLIT has checked: a secret with bytes, and `1 <= k <= n <= 16` (41_polynomial_split.md R133). -/
theorem split_checks {s : State} {k n : Byte} (h : firstFault (checksOf s (.split k n)) = none) :
    s.secv = true ∧ s.seclen ≠ 0 ∧ 1 ≤ k.toNat ∧ k.toNat ≤ n.toNat ∧ n.toNat ≤ 16 := by
  have hc := firstFault_eq_none.1 h
  simp only [checksOf, List.forall_mem_cons] at hc
  obtain ⟨hv, hl, hk, hkn, hn, -⟩ := hc
  simp only [Bool.not_eq_false', decide_eq_false_iff_not] at hv hl hk hkn hn
  exact ⟨hv, hl, by omega, by omega, by omega⟩

/-- The writes of a command whose checks have passed keep the invariant. -/
theorem effect_inv {i : Instr} {s : State} (h : s.Inv) (hc : firstFault (checksOf s i) = none) : (effect s i).1.Inv := by
  cases i with
  | nop | rdr | rdcsr => exact h
  | gfadd | gfmul | gfdiv | gfinv | gfpow | ldi | mov | secrd | shrd | shx | eval | interp => exact h.setReg _ _
  | lbasis => exact (h.setReg _ _).setReg _ _
  | ldc | ldci => exact h.setCoef _ _
  | ldcr => exact (h.withRnd _).setCoef _ _
  | secnew => exact h.withSecret (Nat.zero_le _)
  | secpush | secpushi =>
    obtain ⟨hv, hl⟩ := secPush_checks hc
    exact h.append_sec _ hv hl
  | shnew => exact h.withSlots (Nat.zero_le _) nofun
  | shopen | shopeni =>
    obtain ⟨hv, hn⟩ := shOpen_checks hc
    exact h.openSlot _ hv hn
  | shpush | shpushi =>
    obtain ⟨hv, -, hl⟩ := shPush_checks hc
    exact h.append_sh _ _ hv hl
  | split k n =>
    obtain ⟨-, -, -, -, hn⟩ := split_checks hc
    exact (h.withRnd _).splitWith _ hn _
  | recover => exact h.withSecret (by simpa [State.recovered] using h.slen_le_lmax 0)
  | sreset => exact h.clear

theorem exec_inv {i : Instr} {s t : State} (h : s.Inv) (he : exec i s = .next t) : t.Inv := by
  obtain ⟨f, -, rfl⟩ | ⟨-, hd, rfl⟩ | ⟨hc, -, rfl⟩ := exec_next_cases he
  · exact h.raiseFault f
  · exact h.hold hd
  · exact (effect_inv h hc).succeed _

theorem step_inv {s t : State} (h : s.Inv) (hs : step s = .next t) : t.Inv := by
  obtain ⟨i, -, he⟩ | ⟨w, rest, i, -, -, -, he⟩ | ⟨w, rest, e, -, -, -, he⟩ | ⟨lost, rest, -, he⟩ | ⟨-, -, he⟩ :=
    step_cases s <;> rw [he] at hs
  · exact exec_inv h.notHeld hs
  · exact exec_inv (h.withHost rest) hs
  · cases hs; exact (h.withHost rest).raiseFault _
  · cases hs; exact (h.withHost rest).hardReset lost
  · cases hs; exact h

/-- The capacity is a parameter: no command changes it (00_scope.md R6). -/
theorem exec_lmax {i : Instr} {s t : State} (h : exec i s = .next t) : t.lmax = s.lmax := by
  obtain ⟨f, -, rfl⟩ | ⟨-, -, rfl⟩ | ⟨-, -, rfl⟩ := exec_next_cases h
  · rfl
  · rfl
  · obtain ⟨-, -, hl, -⟩ := effect_frame s i
    exact hl

theorem step_lmax {s t : State} (hs : step s = .next t) : t.lmax = s.lmax := by
  obtain ⟨i, -, he⟩ | ⟨w, rest, i, -, -, -, he⟩ | ⟨w, rest, e, -, -, -, he⟩ | ⟨lost, rest, -, he⟩ | ⟨-, -, he⟩ :=
    step_cases s <;> rw [he] at hs
  · exact (exec_lmax hs).trans rfl
  · exact (exec_lmax hs).trans rfl
  · cases hs; rfl
  · cases hs; rfl
  · cases hs; rfl

/-- What every step keeps holds of every state reached. -/
theorem Reaches.keeps {P : State → Prop} (hP : ∀ s t, P s → step s = .next t → P t) {s t : State} (h : Reaches s t)
    (hs : P s) : P t := by
  induction h with
  | refl => exact hs
  | tail _ hstep ih => exact hP _ _ ih hstep

theorem configLmax_range : 1 ≤ Config.lmax ∧ Config.lmax ≤ 65535 := by
  have := Config.lmaxBelow.isLt
  unfold Config.lmax
  omega

/-- The start of a run is a cleared state. -/
theorem State.start_inv {lmax : Nat} (acts : List HostAct) (rnd : List Byte) (h : 1 ≤ lmax) (h' : lmax ≤ 65535) :
    (State.start lmax acts rnd).Inv :=
  State.clear_inv (s := State.start lmax acts rnd) ⟨h, h'⟩ nofun

/-- The reset state is the start of a run of a block of capacity `Config.lmax` with no host act and no entropy. -/
theorem State.reset_inv : State.reset.Inv := State.start_inv [] [] configLmax_range.1 configLmax_range.2

/-! ## Reset -/

theorem step_hardReset {s : State} {lost : Nat} {rest : List HostAct} (h : s.host = .hardReset lost :: rest) :
    step s = .next ({ s with host := rest }.hardReset lost) := by
  simp [step, nextWork, h]

theorem State.clear_archReset (s : State) : s.clear.ArchReset where
  r i := by simp
  c i := by simp
  secv := rfl
  sec := rfl
  shv := rfl
  slots := rfl
  last := rfl
  fltmask := rfl

/-! ## The coefficient file -/

/-- A split overwrites the coefficients that it evaluates (41_polynomial_split.md R133), so its slots do not depend on what the file
held before. -/
theorem splitLoop_slots_of_coefs {k : Nat} (hk : 1 ≤ k) (hk' : k ≤ 16) {bs draws : List Byte} (cf cf' : Vector Byte 16)
    (slots : List Slot) (hd : bs.length * (k - 1) ≤ draws.length) :
    (splitLoop k bs draws cf slots).2 = (splitLoop k bs draws cf' slots).2 := by
  rw [splitLoop_slots hk hk' _ _ _ _ hd, splitLoop_slots hk hk' _ _ _ _ hd]

/-- No command but EVAL lets the coefficient file reach anything else: the writes on two states that differ in it alone differ
in it alone, and the answers are the same. -/
theorem effect_coefs {i : Instr} {s : State} (cf : Vector Byte 16) (hi : ∀ rd ra k, i ≠ .eval rd ra k)
    (hc : firstFault (checksOf s i) = none) (hd : drawsOf s i ≤ s.rnd.length) :
    ∃ cf', effect { s with c := cf } i = ({ (effect s i).1 with c := cf' }, (effect s i).2) := by
  cases i with
  | eval rd ra k => exact absurd rfl (hi rd ra k)
  | split k n =>
    obtain ⟨-, -, hk, hkn, hn⟩ := split_checks hc
    have hlen : s.sec.length * (k.toNat - 1) ≤ (s.rnd.take (s.splitDraws k.toNat)).length := by
      rw [List.length_take]; exact le_min le_rfl hd
    refine ⟨(effect { s with c := cf } (.split k n)).1.c, ?_⟩
    simp only [effect, State.splitWith, splitLoop_slots_of_coefs hk (hkn.trans hn) s.c cf _ hlen]
    rfl
  | _ => exact ⟨_, rfl⟩

/-! ## The entropy stream -/

/-- Bytes added behind the draws of a command stay there, and its writes and its answer are the same. -/
theorem effect_rnd_append {i : Instr} {s : State} (bs : List Byte) (hd : drawsOf s i ≤ s.rnd.length) :
    effect { s with rnd := s.rnd ++ bs } i = ({ (effect s i).1 with rnd := (effect s i).1.rnd ++ bs }, (effect s i).2) := by
  cases i with
  | ldcr k =>
    simp only [effect, List.take_append_of_le_length (show 1 ≤ s.rnd.length from hd),
      List.drop_append_of_le_length (show 1 ≤ s.rnd.length from hd)]
    rfl
  | split k n =>
    have hd' : s.splitDraws k.toNat ≤ s.rnd.length := hd
    have hsame : { s with rnd := s.rnd ++ bs }.splitDraws k.toNat = s.splitDraws k.toNat := rfl
    simp only [effect, hsame, List.take_append_of_le_length hd', List.drop_append_of_le_length hd']
    rfl
  | _ => rfl

end Sys2Proof.Machine

namespace Sys2Proof.Proofs

open Sys2Proof.Machine

/-- Settles O19: every update a command makes behind its checks keeps the invariant. -/
theorem everyStepKeepsAStateLegal : Obligations.EveryStepKeepsAStateLegal :=
  fun _ _ hs hstep => step_inv hs hstep

/-- Settles O20, by induction on the run. -/
theorem reachableStatesAreLegal : Obligations.ReachableStatesAreLegal := by
  intro lmax acts rnd t h1 h2 hr
  have hinv : t.Inv := hr.keeps (fun _ _ => step_inv) (State.start_inv acts rnd h1 h2)
  have hlmax : t.lmax = lmax := hr.keeps (P := fun u => u.lmax = lmax) (fun _ _ hu hstep => (step_lmax hstep).trans hu) rfl
  exact ⟨fun hv => by rw [hinv.null_secret_empty hv]; rfl, fun hv => by rw [hinv.null_shares_empty hv]; rfl,
    hinv.seclen_le, hinv.cnt_le, hinv.slen_le, hinv.last_le, hinv.fltmask_clear, hlmax⟩

/-- Settles O25: checks and draws do not look at the coefficient file, and writes carry it to itself alone. -/
theorem coefficientFileHasNoReadPath : Obligations.CoefficientFileHasNoReadPath := by
  intro i s t cf hi h
  obtain ⟨f, hf, rfl⟩ | ⟨hn, hd, rfl⟩ | ⟨hn, hd, rfl⟩ := exec_next_cases h
  · exact ⟨cf, by rw [exec_eq, checksOf_coefs, checked, hf]; rfl⟩
  · refine ⟨cf, ?_⟩
    rw [exec_eq, checksOf_coefs, checked, hn, finish_of_lt (by rw [drawsOf_coefs]; exact hd)]
    rfl
  · obtain ⟨cf', he⟩ := effect_coefs cf hi hn hd
    refine ⟨cf', ?_⟩
    rw [exec_of_pass (by rw [checksOf_coefs]; exact hn) (by rw [drawsOf_coefs]; exact hd), he]
    rfl

/-- Settles O11, by the two forms a response has. -/
theorem lastIsTheCodeOfTheResponse : Obligations.LastIsTheCodeOfTheResponse := by
  intro i s t q h hq
  change t.last = responseCode q
  obtain ⟨f, hcode, rfl⟩ | ⟨hcode, -, rfl⟩ := exec_response_cases h hq
  · exact hcode.symm
  · exact hcode.symm

/-- Settles O13: no command but SRESET clears a bit, and a legal state holds no SRESET. -/
theorem faultMaskIsSticky : Obligations.FaultMaskIsSticky := by
  intro s t b hinv hs hb ht
  have absurd_kept {p : Prop} (hk : t.fltmask.getLsbD b = true) : p := by simp [hk] at ht
  obtain ⟨i, hi, he⟩ | ⟨w, rest, i, hh, hd, hw, he⟩ | ⟨w, rest, e, -, -, -, he⟩ | ⟨lost, rest, hh, -⟩ | ⟨-, -, he⟩ := step_cases s
  · have hns : i ≠ .sreset := by
      rintro rfl
      simpa using hinv.held_draws _ hi
    exact absurd_kept (exec_fltmask_keeps (he.symm.trans hs) hns hb)
  · by_cases hi : i = .sreset
    · exact .inr ⟨w, rest, hh, hd, hi ▸ hw⟩
    · exact absurd_kept (exec_fltmask_keeps (he.symm.trans hs) hi hb)
  · cases he.symm.trans hs
    exact absurd_kept (State.raiseFault_fltmask_keeps _ hb)
  · exact .inl ⟨lost, rest, hh⟩
  · cases he.symm.trans hs
    exact absurd_kept hb

/-- Settles O14: a fault leaves its bit in the mask and no answer of a success; a wait and a success leave the mask. -/
theorem clearFaultMaskMeansNoFault : Obligations.ClearFaultMaskMeansNoFault := by
  intro i s t h hi
  obtain ⟨f, -, rfl⟩ | ⟨-, -, rfl⟩ | ⟨-, -, rfl⟩ := exec_next_cases h
  · refine iff_of_false (s.raiseFault_records f) ?_
    rintro ⟨-, hr | ⟨v, hr⟩⟩
    · simp at hr
    · exact faultResponse_ne_ok f v (by simpa using hr)
  · exact ⟨fun hm => ⟨hm, .inl rfl⟩, And.left⟩
  · obtain ⟨hrsps, -, -, -, -, hmask⟩ := effect_frame s i
    have hanswer : ((effect s i).1.succeed (effect s i).2).rsps = s.rsps ++ [(effect s i).2.setWidth 32] := by
      rw [State.succeed_rsps, hrsps, okResponse_eq]
    have hsame : ((effect s i).1.succeed (effect s i).2).noFaultRecorded ↔ s.noFaultRecorded := by
      rw [State.noFaultRecorded, State.succeed_fltmask, hmask hi, State.noFaultRecorded]
    exact ⟨fun hm => ⟨hsame.1 hm, .inr ⟨_, hanswer⟩⟩, fun hm => hsame.2 hm.1⟩

/-- Settles O21, by what the writes of a command leave of the registers. -/
theorem scalarRegistersChangeOnlyAsDestinations : Obligations.ScalarRegistersChangeOnlyAsDestinations := by
  intro i s t j h hj
  obtain hk | hk := exec_contents h
  · rw [hk.r]
  · rw [hk.r, effect_r s hj]

/-- Settles O22: a buffer that changed is one the command's writes reach. -/
theorem buffersChangeOnlyByTheirCommands : Obligations.BuffersChangeOnlyByTheirCommands := by
  intro i s t h
  obtain hk | hk := exec_contents h
  · exact ⟨fun hne => absurd hk.c hne, fun hne => absurd hk.sec hne, fun hne => absurd hk.slots hne⟩
  · exact ⟨fun hne => (effect_c s i).resolve_left fun he => hne (hk.c.trans he),
      fun hne => (effect_sec s i).resolve_left fun he => hne (hk.sec.trans he),
      fun hne => (effect_slots s i).resolve_left fun he => hne (hk.slots.trans he)⟩

/-- Settles O23, by what the writes of a command leave of the existence bits and the slots. -/
theorem containersAreAppendOnly : Obligations.ContainersAreAppendOnly := by
  intro i s t h hr
  obtain hk | hk := exec_contents h
  · rw [hk.secv, hk.shv, hk.slots]
    exact ⟨id, id, fun _ _ => SlotsExtend.refl _⟩
  · rw [hk.secv, hk.shv, hk.slots]
    exact ⟨effect_secv s hr, effect_shv s hr, effect_slotsExtend s hr⟩

/-- Settles O24: only the writes of a success take bytes from the stream. -/
theorem onlyLdcrAndSplitDraw : Obligations.OnlyLdcrAndSplitDraw := by
  refine ⟨fun _ _ => rfl, fun _ _ _ => rfl, fun s i hl hs => ?_, fun i s t h =>
    ⟨fun q hq hcode => ?_, fun q hq hcode => ?_, fun hq => ?_⟩⟩
  · cases i with
    | ldcr k => exact absurd rfl (hl k)
    | split k n => exact absurd rfl (hs k n)
    | _ => rfl
  · obtain ⟨f, hf, -⟩ | ⟨-, hd, rfl⟩ := exec_response_cases h hq
    · exact absurd (hf.symm.trans hcode) f.code_ne_zero
    · obtain ⟨-, -, -, -, hrnd, -⟩ := effect_frame s i
      exact ⟨hd, hrnd⟩
  · obtain ⟨f, -, rfl⟩ | ⟨hok, -, -⟩ := exec_response_cases h hq
    · rfl
    · exact absurd hok hcode
  · rw [exec_no_response h hq, State.hold_rnd]

/-- Settles O27: checks do not look at the stream, and writes look at its first `drawsOf` bytes only. -/
theorem undrawnBytesAreNotLookedAt : Obligations.UndrawnBytesAreNotLookedAt := by
  intro i s t bs h hheld hnone
  obtain ⟨f, hf, rfl⟩ | ⟨-, -, rfl⟩ | ⟨hn, hd, rfl⟩ := exec_next_cases h
  · rw [exec_eq, checksOf_rnd, checked, hf]
    rfl
  · simp [hnone] at hheld
  · have hd' : drawsOf { s with rnd := s.rnd ++ bs } i ≤ (s.rnd ++ bs).length := by
      rw [drawsOf_rnd, List.length_append]
      exact Nat.le_add_right_of_le hd
    rw [exec_of_pass (by rw [checksOf_rnd]; exact hn) hd', effect_rnd_append bs hd]
    rfl

/-- Settles O6: a rule of the step. -/
theorem stepRunsTheDecodedCommand : Obligations.StepRunsTheDecodedCommand :=
  fun _ _ _ _ hhost hheld hw => step_command hhost hheld hw

/-- Settles O7: the word that `withFetchWord` places is the word that `decodeTableWord` decodes. -/
theorem fetchWordIsTheNextCommand : Obligations.FetchWordIsTheNextCommand := by
  intro s nbits w i h
  have hw : decode (wordOfBits nbits w) = .ok i := by
    unfold decodeTableWord at h
    split at h
    · unfold wordOfBits
      cases hd : decode (BitVec.ofNat 32 (w % 2 ^ nbits)) with
      | error e => simp [hd, Except.toOption] at h
      | ok i' => simpa [hd, Except.toOption] using h
    · cases h
  exact step_command (s := s.withFetchWord nbits w) rfl rfl hw

/-- Settles O16: SRESET and hardware reset both leave `State.clear`, and the reset state is one. -/
theorem resetLeavesTheStatedValues : Obligations.ResetLeavesTheStatedValues := by
  refine ⟨State.reset.clear_archReset, fun s t h => ?_, fun s t lost rest hh h => ?_⟩
  · cases h
    exact ⟨{ s.clear_archReset with }, rfl⟩
  · rw [step_hardReset hh] at h
    cases h
    exact ⟨{ s.clear_archReset with }, by rintro rfl; rfl⟩

/-- Settles O18: the start of a run is a cleared state. -/
theorem resetStateIsLegal : Obligations.ResetStateIsLegal :=
  ⟨State.reset_inv, fun _ acts rnd h1 h2 => State.start_inv acts rnd h1 h2⟩

end Sys2Proof.Proofs

/-! # Proofs of the statements about the encoding (30_encoding.md)

Two facts carry the family: what a row builds from a word encodes to the row's match with the word's own bits where the mask is 0
(`encode_build`), and a command is what its row builds from its word (`build_encode`). From them, one equivalence for the decoder
(`decode_eq_ok_iff`), and the settled statements at the end. -/

namespace Sys2Proof

open Machine

/-! ## The rows of the opcode map -/

theorem rowOf_mem {op : Byte} {row : Row} (h : rowOf op = some row) : row ∈ opcodeTable := List.mem_of_find?_eq_some h

theorem opcodeTable_ops_nodup : (opcodeTable.map Row.op).Nodup := by decide

/-- An opcode finds each row of the map, since no two have the same. -/
theorem rowOf_op {row : Row} (h : row ∈ opcodeTable) : rowOf row.op = some row := by
  obtain ⟨found, hf⟩ : ∃ found, rowOf row.op = some found :=
    Option.isSome_iff_exists.1 (List.find?_isSome.2 ⟨row, h, by simp⟩)
  have hop : found.op = row.op := by simpa using List.find?_some hf
  rw [hf, List.inj_on_of_nodup_map opcodeTable_ops_nodup (rowOf_mem hf) h hop]

/-- The mask of a row covers the opcode and every bit that its match sets (30_encoding.md R73). -/
theorem row_columns {row : Row} (h : row ∈ opcodeTable) :
    opField row.mask = 0xFF#8 ∧ opField row.pattern = row.op ∧ row.pattern &&& row.mask = row.pattern := by
  revert h row; decide

/-- So a word that passes a row's test has the row's opcode. -/
theorem opField_of_test {w : Word} {row : Row} (h : row ∈ opcodeTable) (hm : w &&& row.mask = row.pattern) :
    opField w = row.op := by
  obtain ⟨hmask, hpattern, -⟩ := row_columns h
  calc opField w = opField w &&& opField row.mask := by rw [hmask]; exact BitVec.and_allOnes.symm
    _ = opField (w &&& row.mask) := BitVec.extractLsb'_and.symm
    _ = row.op := by rw [hm, hpattern]

/-- Only LBASIS has operands that do not go together (R76). -/
theorem build_wf_iff {row : Row} (h : row ∈ opcodeTable) (w : Word) :
    (row.build w).wf = true ↔ (row.op = 0x38#8 → faField w ≠ fbField w) := by
  revert h row
  simp [opcodeTable, rowsArith, rowsLoad, rowsSecret, rowsShare, rowsCompound, Instr.wf]

theorem isCommandWord_iff {w : Word} :
    isCommandWord w ↔ ∃ row ∈ opcodeTable, w &&& row.mask = row.pattern ∧ (row.build w).wf = true :=
  exists_congr fun _ => and_congr_right fun h => and_congr_right fun _ => (build_wf_iff h w).symm

/-! ## Encoding what a row builds -/

/-- The operands of a row fill exactly the bits that its mask leaves free. -/
theorem encode_build {row : Row} (h : row ∈ opcodeTable) (w : Word) :
    encode (row.build w) = row.pattern ||| (w &&& ~~~row.mask) := by
  revert h row
  simp [opcodeTable, rowsArith, rowsLoad, rowsSecret, rowsShare, rowsCompound, encode, encR3, encR2, encA, encB, encAI8, encI8,
    encAI16, place4_faField, place4_fbField, place4_fcField, place8_imm8Field, place8_n8Field, place16_imm16Field,
    BitVec.or_assoc, and_or_and]

theorem encode_build_test {row : Row} (h : row ∈ opcodeTable) (w : Word) :
    encode (row.build w) &&& row.mask = row.pattern := by
  obtain ⟨-, -, hpattern⟩ := row_columns h
  rw [encode_build h, or_and, hpattern, BitVec.and_assoc, BitVec.not_and_self]
  simp

theorem encode_build_of_test {w : Word} {row : Row} (h : row ∈ opcodeTable) (hm : w &&& row.mask = row.pattern) :
    encode (row.build w) = w := by
  rw [encode_build h, ← hm, and_or_and, BitVec.or_not_self, BitVec.and_allOnes]

/-! ## The row of a command -/

/-- The opcode of a command, the first column of R76. -/
def opcode : Instr → Byte
  | .nop => 0x00 | .gfadd .. => 0x01 | .gfmul .. => 0x02 | .gfdiv .. => 0x03 | .gfinv .. => 0x04 | .gfpow .. => 0x05
  | .ldi .. => 0x10 | .mov .. => 0x11 | .rdr .. => 0x12 | .ldc .. => 0x18 | .ldci .. => 0x19 | .ldcr .. => 0x1A
  | .secnew => 0x20 | .secpush .. => 0x21 | .secpushi .. => 0x22 | .secrd .. => 0x23
  | .shnew => 0x28 | .shopen .. => 0x29 | .shopeni .. => 0x2A | .shpush .. => 0x2B | .shpushi .. => 0x2C
  | .shrd .. => 0x2D | .shx .. => 0x2E
  | .eval .. => 0x30 | .split .. => 0x31 | .lbasis .. => 0x38 | .interp .. => 0x39 | .recover => 0x3A
  | .rdcsr .. => 0x7E | .sreset => 0x7F

theorem faField_eq_iff {w : Word} {i : Fin 16} : faField w = i ↔ w.extractLsb' 20 4 = BitVec.ofFin i :=
  ⟨congrArg BitVec.ofFin, faField_eq⟩

theorem fbField_eq_iff {w : Word} {i : Fin 16} : fbField w = i ↔ w.extractLsb' 16 4 = BitVec.ofFin i :=
  ⟨congrArg BitVec.ofFin, fbField_eq⟩

theorem fcField_eq_iff {w : Word} {i : Fin 16} : fcField w = i ↔ w.extractLsb' 12 4 = BitVec.ofFin i :=
  ⟨congrArg BitVec.ofFin, fcField_eq⟩

/-- Every operand is read back from its field: the commands by their format (R72), then the four with a format of their own. -/
theorem build_encode (i : Instr) : ∃ row, rowOf (opcode i) = some row ∧ row.build (encode i) = i := by
  cases i with
  | nop | secnew | shnew | recover | sreset => exact ⟨_, rfl, rfl⟩
  | gfadd | gfmul | gfdiv | gfpow | lbasis =>
    exact ⟨_, rfl, by simp [encode, encR3, extract_or, faField_eq_iff, fbField_eq_iff, fcField_eq_iff]⟩
  | gfinv | mov | ldc | shpush | shx =>
    exact ⟨_, rfl, by simp [encode, encR2, extract_or, faField_eq_iff, fbField_eq_iff]⟩
  | ldcr => exact ⟨_, rfl, by simp [encode, encA, extract_or, faField_eq_iff]⟩
  | rdr | secpush | shopen => exact ⟨_, rfl, by simp [encode, encB, extract_or, fbField_eq_iff]⟩
  | ldi | ldci | shpushi => exact ⟨_, rfl, by simp [encode, encAI8, extract_or, faField_eq_iff, imm8Field]⟩
  | secpushi | shopeni | rdcsr => exact ⟨_, rfl, by simp [encode, encI8, extract_or, imm8Field]⟩
  | secrd | interp => exact ⟨_, rfl, by simp [encode, encAI16, extract_or, faField_eq_iff, imm16Field]⟩
  | shrd => exact ⟨_, rfl, by simp [encode, extract_or, faField_eq_iff, fbField_eq_iff, imm16Field]⟩
  | eval => exact ⟨_, rfl, by simp [encode, extract_or, faField_eq_iff, fbField_eq_iff, imm8Field]⟩
  | split => exact ⟨_, rfl, by simp [encode, extract_or, imm8Field, n8Field]⟩

/-! ## The decoder -/

/-- The decode test of R73 and R76, without the search for the row. -/
theorem decode_eq_ok_iff {w : Word} {i : Instr} :
    decode w = .ok i ↔
      ∃ row ∈ opcodeTable, w &&& row.mask = row.pattern ∧ (row.build w).wf = true ∧ i = row.build w := by
  constructor
  · intro h
    obtain ⟨row, hr, hrest⟩ := decode_eq_ok h
    exact ⟨row, rowOf_mem hr, hrest⟩
  · rintro ⟨row, hrow, hm, hwf, rfl⟩
    exact decode_of_row (by rw [opField_of_test hrow hm, rowOf_op hrow]) hm hwf

theorem decode_encode {i : Instr} (h : i.wf = true) : decode (encode i) = .ok i := by
  obtain ⟨row, hr, hbuild⟩ := build_encode i
  have htest := encode_build_test (rowOf_mem hr) (encode i)
  rw [← hbuild] at h
  rw [hbuild] at htest
  exact decode_eq_ok_iff.2 ⟨row, rowOf_mem hr, htest, h, hbuild.symm⟩

theorem encode_of_decode {w : Word} {i : Instr} (h : decode w = .ok i) : i.wf = true ∧ encode i = w := by
  obtain ⟨row, hrow, hm, hwf, rfl⟩ := decode_eq_ok_iff.1 h
  exact ⟨hwf, encode_build_of_test hrow hm⟩

/-- A word is a command exactly if it decodes. -/
theorem isCommandWord_iff_decode {w : Word} : isCommandWord w ↔ ∃ i, decode w = .ok i := by
  rw [isCommandWord_iff]
  constructor
  · rintro ⟨row, hrow, hm, hwf⟩
    exact ⟨_, decode_eq_ok_iff.2 ⟨row, hrow, hm, hwf, rfl⟩⟩
  · rintro ⟨i, h⟩
    obtain ⟨row, hrow, hm, hwf, -⟩ := decode_eq_ok_iff.1 h
    exact ⟨row, hrow, hm, hwf⟩

theorem unassignedOp_iff (op : Byte) : unassignedOp op.toNat ↔ rowOf op = none := by
  simp [unassignedOp, rowOf, opcodeTable, rowsArith, rowsLoad, rowsSecret, rowsShare, rowsCompound]
  bv_omega

end Sys2Proof

namespace Sys2Proof.Machine

/-! ## The step on an illegal word -/

theorem step_illegal {s : State} {w : Word} {rest : List HostAct} (hh : s.host = .command w :: rest) (hd : s.held = none)
    (hw : ¬ isCommandWord w) : step s = .next ({ s with host := rest }.raiseFault .illegalCommand) := by
  obtain ⟨e, he⟩ : ∃ e, decode w = .error e := by
    cases hdec : decode w with
    | ok i => exact absurd (isCommandWord_iff_decode.2 ⟨i, hdec⟩) hw
    | error e => exact ⟨e, rfl⟩
  simp [step, nextWork, takeWord, hh, hd, he]

/-! ## The response word -/

/-- The reserved bits of a response (30_encoding.md R75). -/
theorem reserved_responseWord (code : Byte) (v : Half) : (responseWord code v).extractLsb' 16 8 = 0#8 :=
  (BitVec.extractLsb'_append_eq_of_add_le (by decide)).trans BitVec.extractLsb'_append_eq_left

/-- A response of R75: a code of R221 or 0, the reserved bits 0, and a value only with code 0. -/
def WellFormedResponse (q : Word) : Prop :=
  (responseCode q).toNat ≤ 11 ∧ q.extractLsb' 16 8 = 0#8 ∧ (responseCode q ≠ 0#8 → responseValue q = 0#16)

theorem okResponse_wellFormed (v : Half) : WellFormedResponse (okResponse v) :=
  ⟨by simp, reserved_responseWord _ v, fun h => absurd (responseCode_okResponse v) h⟩

theorem faultResponse_wellFormed (f : FaultCode) : WellFormedResponse (faultResponse f) :=
  ⟨by simpa using f.code_le, reserved_responseWord _ _, fun _ => responseValue_responseWord _ _⟩

/-! ## POINT -/

/-- SHOPENI on a collection that is not full. -/
theorem exec_shopeni {s : State} (x : Byte) (hv : s.shv = true) (hn : s.cnt ≠ 16) :
    exec (.shopeni x) s = .next ((s.openSlot x).succeed (count16 s.cnt)) :=
  exec_of_pass (by simp [checksOf, firstFault_eq_none, hv, hn]) (Nat.zero_le _)

/-- SHPUSHI on an open slot that is not full. -/
theorem exec_shpushi {s : State} {j : Fin 16} (y : Byte) (hv : s.shv = true) (hj : j.val < s.cnt)
    (hl : s.slen j.val ≠ s.lmax) :
    exec (.shpushi j y) s = .next ((s.append (.sh j.val) y).succeed (count16 (s.slen j.val + 1))) :=
  exec_of_pass (by simp [checksOf, firstFault_eq_none, hv, hj, hl]) (Nat.zero_le _)

/-- A byte pushed to the slot just opened. -/
theorem modify_push_opened (slots : List Slot) (x y : Byte) :
    (slots ++ [(⟨x, []⟩ : Slot)]).modify slots.length (fun sl => sl.push y) = slots ++ [⟨x, [y]⟩] :=
  List.modifyTailIdx_add _ 0 slots [⟨x, []⟩]

end Sys2Proof.Machine

namespace Sys2Proof.Proofs

open Sys2Proof.Machine

/-- Settles O1: a command's word passes its row's test, and the row builds the command from it. -/
theorem decodeInvertsEncode : Obligations.DecodeInvertsEncode := fun _ hwf => decode_encode hwf

/-- Settles O2: the operands that a row reads fill the bits its mask leaves free. -/
theorem encodeInvertsDecode : Obligations.EncodeInvertsDecode := fun _ _ h => encode_of_decode h

/-- Settles O3: the search for the row finds the row whose test is passed, and the test fixes the opcode. -/
theorem maskAndMatchIsTheDecodeTest : Obligations.MaskAndMatchIsTheDecodeTest := by
  refine ⟨fun w row hrow hm hne => ?_, fun w i h => ?_, fun w row hrow row' hrow' hm hm' => ?_⟩
  · exact decode_eq_ok_iff.2 ⟨row, hrow, hm, (build_wf_iff hrow w).2 hne, rfl⟩
  · obtain ⟨row, hrow, hm, hwf, hi⟩ := decode_eq_ok_iff.1 h
    exact ⟨row, hrow, hm, (build_wf_iff hrow w).1 hwf, hi⟩
  · rw [← opField_of_test hrow hm, opField_of_test hrow' hm']

/-- Settles O5: the one command of a word is what it decodes to, and an illegal word takes the one fault entry. -/
theorem illegalWordFaultsAndChangesNothingElse : Obligations.IllegalWordFaultsAndChangesNothingElse := by
  refine ⟨fun w => unassignedOp_iff (opField w), fun w => ?_, fun s w rest hh hd hw => step_illegal hh hd hw⟩
  rw [isCommandWord_iff_decode]
  constructor
  · rintro ⟨i, ⟨hwf, rfl⟩, -⟩
    exact ⟨i, decode_encode hwf⟩
  · rintro ⟨i, h⟩
    refine ⟨i, encode_of_decode h, ?_⟩
    rintro j ⟨hwf, rfl⟩
    exact Except.ok.inj ((decode_encode hwf).symm.trans h)

/-- Settles O10, by the three forms a command's next state has. -/
theorem everyCommandAnswersOnceOrHolds : Obligations.EveryCommandAnswersOnceOrHolds := by
  intro i s t h
  obtain ⟨f, -, rfl⟩ | ⟨-, hd, rfl⟩ | ⟨-, -, rfl⟩ := exec_next_cases h
  · exact .inr ⟨rfl, _, rfl, faultResponse_wellFormed f⟩
  · exact .inl ⟨rfl, hd⟩
  · obtain ⟨hrsps, -, -, hheld, -⟩ := effect_frame s i
    exact .inr ⟨hheld, _, by rw [State.succeed_rsps, hrsps], okResponse_wellFormed _⟩

/-- Settles O45: the slot that SHOPENI opens has number `j` and no bytes, so SHPUSHI finds it open and not full. -/
theorem pointOpensOneShare : Obligations.PointOpensOneShare := by
  intro j x y s hv hj hl
  have hn : s.cnt ≠ 16 := (hj.trans_lt j.isLt).ne
  have hnew : ((s.openSlot x).succeed (count16 s.cnt)).slots[j.val]? = some ⟨x, []⟩ := by simp [← hj]
  refine ⟨_, _, rfl, exec_shopeni x hv hn, exec_shpushi y hv ?_ ?_, ?_, rfl⟩
  · exact (List.getElem?_eq_some_iff.1 hnew).1
  · rw [State.slen_of_getElem? hnew]
    exact (Nat.lt_of_succ_le hl).ne
  · simpa [← hj] using modify_push_opened s.slots x y

/-- Settles O4: the decoder computes. -/
theorem wordsOfTheSpecDecode : Obligations.WordsOfTheSpecDecode := by
  unfold Obligations.WordsOfTheSpecDecode
  decide

end Sys2Proof.Proofs

/-! # Proofs of the statements about the field (40_field_arithmetic.md)

The laws of R104 are those of Laws/Field.lean. Quotients, inverses, powers and logarithms are read in the field `F` of
Laws/FieldMap.lean, where they are the library's. The reduced product (R103) is bilinear, as the multiplier is, so the two are
compared on one-bit bytes only. The settled statements stand at the end. -/

namespace Sys2Proof.Machine

/-! ## Products, quotients and inverses -/

theorem gmul_two (a : Byte) : gmul a 0x02#8 = xtime a := by simp [gmul_eq]

theorem gmul_eq_zero {a b : Byte} : gmul a b = 0x00#8 ↔ a = 0x00#8 ∨ b = 0x00#8 := by
  obtain ⟨F, _, ⟨B⟩⟩ := byteField_exists
  rw [← B.eq_zero, B.mul, mul_eq_zero, B.eq_zero, B.eq_zero]

/-- The quotient by its product (R106). -/
theorem eq_gdiv_iff {a b v : Byte} (hb : b ≠ 0x00#8) : v = gdiv a b ↔ gmul v b = a := by
  obtain ⟨F, _, ⟨B⟩⟩ := byteField_exists
  rw [← B.inj, B.gdiv a hb, eq_div_iff (mt B.eq_zero.1 hb), ← B.mul, B.inj]

theorem gmul_gdiv (a : Byte) {b : Byte} (hb : b ≠ 0x00#8) : gmul (gdiv a b) b = a := (eq_gdiv_iff hb).1 rfl

/-- The inverse by its product (R105). -/
theorem eq_ginv_iff {a v : Byte} (ha : a ≠ 0x00#8) : v = ginv a ↔ gmul a v = 0x01#8 := by
  have h : ginv a = gdiv 0x01#8 a := (one_gmul _).symm
  rw [h, eq_gdiv_iff ha, gmul_comm]

/-- What the passes of extended Euclid leave is an inverse (R105). The number of passes and the shift of each depend on the degrees
that the operand leads to, so the loop is run on every byte. -/
theorem gmul_ginvEea {a : Byte} (ha : a ≠ 0x00#8) : gmul a (ginvEea a) = 0x01#8 := by
  have h : ∀ n : Fin 256, n.val ≠ 0 → gmulNat n.val (ginvEea (BitVec.ofFin n)).toNat = 1 := by decide +kernel
  apply BitVec.eq_of_toNat_eq
  rw [gmul_toNat]
  exact h a.toFin fun h0 => ha (BitVec.eq_of_toNat_eq h0)

/-! ## The reduced carry-less product -/

/-- A loop whose passes are additive is additive. -/
theorem foldl_xor {w : Nat} {f g h : BitVec w → Nat → BitVec w} (hs : ∀ p q i, h (p ^^^ q) i = f p i ^^^ g q i) (l : List Nat)
    (p q : BitVec w) : l.foldl h (p ^^^ q) = l.foldl f p ^^^ l.foldl g q := by
  induction l generalizing p q with
  | nil => rfl
  | cons i l ih => rw [List.foldl_cons, hs, ih, List.foldl_cons, List.foldl_cons]

/-- A pass that adds `m` to its sum at a set bit is additive in the sum and the bit. -/
theorem ite_xor_add {w : Nat} (b c : Bool) (p q m : BitVec w) :
    (if (b ^^ c) = true then p ^^^ q ^^^ m else p ^^^ q)
      = (if b = true then p ^^^ m else p) ^^^ (if c = true then q ^^^ m else q) := by
  cases b <;> cases c
  · rfl
  · exact BitVec.xor_assoc p q m
  · show p ^^^ q ^^^ m = p ^^^ m ^^^ q
    ac_rfl
  · show p ^^^ q = p ^^^ m ^^^ (q ^^^ m)
    have h : p ^^^ m ^^^ (q ^^^ m) = p ^^^ q ^^^ (m ^^^ m) := by ac_rfl
    rw [h, BitVec.xor_self, BitVec.xor_zero]

theorem clmul_xor_left (a a' b : Byte) : clmul (a ^^^ a') b = clmul a b ^^^ clmul a' b := by
  refine foldl_xor (fun p q i => ?_) (List.range 8) 0#15 0#15
  cases b.getLsbD i
  · rfl
  · simp only [if_true, BitVec.setWidth_xor, BitVec.shiftLeft_xor_distrib]
    ac_rfl

theorem clmul_xor_right (a b b' : Byte) : clmul a (b ^^^ b') = clmul a b ^^^ clmul a b' := by
  refine foldl_xor (fun p q i => ?_) (List.range 8) 0#15 0#15
  rw [BitVec.getLsbD_xor, ite_xor_add]

theorem reducePoly_xor (p q : BitVec 15) : reducePoly (p ^^^ q) = reducePoly p ^^^ reducePoly q := by
  unfold reducePoly
  rw [← BitVec.setWidth_xor]
  congr 1
  refine foldl_xor (fun p q i => ?_) _ p q
  rw [BitVec.getLsbD_xor, ite_xor_add]

theorem gmul_eq_reducePoly_clmul (a b : Byte) : gmul a b = reducePoly (clmul a b) := by
  refine additive_ext (f := fun a => gmul a b) (g := fun a => reducePoly (clmul a b)) (fun p q => gmul_xor_left p q b)
    (fun p q => by simp only [clmul_xor_left, reducePoly_xor]) (fun i => ?_) a
  refine additive_ext (f := fun b => gmul (1#8 <<< i.val) b) (g := fun b => reducePoly (clmul (1#8 <<< i.val) b))
    (fun p q => gmul_xor_right _ p q) (fun p q => by simp only [clmul_xor_right, reducePoly_xor]) (fun j => ?_) b
  revert i j
  decide +kernel

/-! ## Powers -/

/-- The `n`-fold product (R107). -/
theorem gpow_eq_iterate (a n : Byte) : gpow a n = (gmul a)^[n.toNat] 0x01#8 := by
  obtain ⟨F, _, ⟨B⟩⟩ := byteField_exists
  have key (m : Nat) : B.φ ((gmul a)^[m] 0x01#8) = B.φ a ^ m := by
    induction m with
    | zero => simp [B.one]
    | succ m ih => rw [Function.iterate_succ_apply', B.mul, ih, pow_succ']
  rw [← B.inj, B.gpow, key]

namespace ByteField

variable {F : Type} [Field F] (B : ByteField F)
include B

theorem natCard : Nat.card F = 256 := by
  rw [← Nat.card_eq_of_bijective B.φ B.bij, Nat.card_eq_fintype_card, ← FinEnum.card_eq_fintypeCard, FinEnum.card_bitVec]
  rfl

/-- The multiplicative group has 255 elements. -/
theorem pow_255 {z : F} (hz : z ≠ 0) : z ^ 255 = 1 := by
  have h : Nat.card Fˣ = 255 := by rw [Nat.card_units, B.natCard]
  have hu : Units.mk0 z hz ^ 255 = 1 := by rw [← h]; exact pow_card_eq_one'
  simpa using congrArg Units.val hu

theorem gpow_ofNat (a : Byte) {i : Nat} (h : i < 256) : B.φ (Machine.gpow a (BitVec.ofNat 8 i)) = B.φ a ^ i := by
  rw [B.gpow, BitVec.toNat_ofNat, Nat.mod_eq_of_lt h]

/-- The order of `0x03` divides 255 and is none of its proper divisors (R113). -/
theorem three_isPrimitiveRoot : IsPrimitiveRoot (B.φ 0x03#8) 255 := by
  have hne : ∀ i < 256, Machine.gpow 0x03#8 (BitVec.ofNat 8 i) ≠ 0x01#8 → B.φ 0x03#8 ^ i ≠ 1 := by
    intro i hi h
    rwa [← B.gpow_ofNat _ hi, ← B.one, ne_eq, B.inj]
  rw [IsPrimitiveRoot.iff_orderOf]
  refine orderOf_eq_of_pow_and_pow_div_prime (by decide) (B.pow_255 (mt B.eq_zero.1 (by decide))) fun p hp hd => ?_
  have hprime : p = 3 ∨ p = 5 ∨ p = 17 := by
    have h : p ∣ 3 * (5 * 17) := hd
    rwa [hp.dvd_mul, hp.dvd_mul, Nat.prime_dvd_prime_iff_eq hp Nat.prime_three, Nat.prime_dvd_prime_iff_eq hp Nat.prime_five,
      Nat.prime_dvd_prime_iff_eq hp (by norm_num)] at h
  obtain rfl | rfl | rfl := hprime
  · exact hne 85 (by decide) (by decide +kernel)
  · exact hne 51 (by decide) (by decide +kernel)
  · exact hne 15 (by decide) (by decide +kernel)

end ByteField

/-! ## The commands -/

/-- A register and its response, in the numbers of R32 and R75. -/
theorem State.finishReg_eq (s : State) (rd : Fin 16) (v : Byte) :
    s.finishReg rd v = { s with r := s.r.set rd v }.afterOk (v.setWidth 16) := State.succeed_eq _ _

/-- A command behind one failing check faults. -/
theorem exec_fault_of_check {i : Instr} {s : State} {b : Bool} (f : FaultCode) (hc : checksOf s i = [(b, f)]) (hb : b = true) :
    exec i s = .next (s.afterFault f.code) := by
  rw [exec_eq, hc, hb, checked_cons_true, State.raiseFault_eq]

theorem exec_gfdiv {s : State} (rd ra : Fin 16) {rb : Fin 16} (h : s.r[rb] ≠ 0x00#8) :
    exec (.gfdiv rd ra rb) s = .next (s.finishReg rd (gdiv s.r[ra] s.r[rb])) :=
  exec_of_pass (firstFault_eq_none.2 (List.forall_mem_singleton.2 (decide_eq_false h))) (Nat.zero_le _)

theorem exec_gfinv {s : State} (rd : Fin 16) {ra : Fin 16} (h : s.r[ra] ≠ 0x00#8) :
    exec (.gfinv rd ra) s = .next (s.finishReg rd (ginv s.r[ra])) :=
  exec_of_pass (firstFault_eq_none.2 (List.forall_mem_singleton.2 (decide_eq_false h))) (Nat.zero_le _)

end Sys2Proof.Machine

namespace Sys2Proof.Proofs

open Sys2Proof.Machine

/-- Settles O29: the bytes are a field, so they have no zero divisors, and the multiplier's passes on `0x02` leave `xtime`. -/
theorem multiplicationObeysTheFieldLaws : Obligations.MultiplicationObeysTheFieldLaws := fun a b c =>
  ⟨gmul_comm a b, (gmul_assoc a b c).symm, gmul_xor_right a b c, gmul_one a, gmul_zero a, gmul_eq_zero.1, gmul_two a⟩

/-- Settles O30: both products are bilinear and agree on one-bit bytes. -/
theorem multiplierIsTheReducedCarrylessProduct : Obligations.MultiplierIsTheReducedCarrylessProduct :=
  gmul_eq_reducePoly_clmul

/-- Settles O31: a nonzero byte has one inverse, and both constructions give an inverse. -/
theorem inverseIsUniqueAndBothConstructionsAgree : Obligations.InverseIsUniqueAndBothConstructionsAgree := fun _ ha =>
  ⟨gmul_ginv ha, fun _ => (eq_ginv_iff ha).2, (eq_ginv_iff ha).2 (gmul_ginvEea ha)⟩

/-- Settles O32, by the product that tells the quotient. -/
theorem divisionUndoesMultiplication : Obligations.DivisionUndoesMultiplication := fun a b hb =>
  ⟨gmul_gdiv a hb, fun _ => (eq_gdiv_iff hb).2, zero_gmul _, gmul_ginv hb, ((eq_gdiv_iff (by decide)).2 (gmul_one a)).symm⟩

/-- Settles O33: the corner values are those of a field of 256 elements. -/
theorem powerIsTheRepeatedProduct : Obligations.PowerIsTheRepeatedProduct := by
  intro a n
  obtain ⟨F, _, ⟨B⟩⟩ := byteField_exists
  refine ⟨gpow_eq_iterate a n, B.inj.1 ?_, fun hn => B.inj.1 ?_, B.inj.1 ?_,
    fun ha => ⟨(eq_ginv_iff ha).2 (B.inj.1 ?_), B.inj.1 ?_⟩⟩
  · rw [B.gpow, B.one]; exact pow_zero _
  · rw [B.gpow, B.zero, zero_pow (by omega)]
  · rw [B.gpow]; exact pow_one _
  · rw [B.mul, B.gpow, B.one, ← B.pow_255 (mt B.eq_zero.1 ha)]; exact (pow_succ' _ 254).symm
  · rw [B.gpow, B.one]; exact B.pow_255 (mt B.eq_zero.1 ha)

/-- Settles O34: `0x03` is a primitive root of unity of order 255. -/
theorem generatorGivesLogarithms : Obligations.GeneratorGivesLogarithms := by
  obtain ⟨F, _, ⟨B⟩⟩ := byteField_exists
  have hroot := B.three_isPrimitiveRoot
  have hlog {i : Nat} (hi : i < 255) : B.φ (gpow 0x03#8 (BitVec.ofNat 8 i)) = B.φ 0x03#8 ^ i := B.gpow_ofNat _ (by omega)
  have hmod (m : Nat) : B.φ (gpow 0x03#8 (BitVec.ofNat 8 (m % 255))) = B.φ 0x03#8 ^ m := by
    rw [hlog (Nat.mod_lt m (by decide)), ← pow_eq_pow_mod m hroot.pow_eq_one]
  refine ⟨fun a ha => ?_, fun i hi j hj h => ?_, by decide +kernel, fun i hi j hj => ⟨?_, ?_⟩⟩
  · obtain ⟨i, hi, h⟩ := hroot.eq_pow_of_pow_eq_one (B.pow_255 (mt B.eq_zero.1 ha))
    exact ⟨i, hi, B.inj.1 ((hlog hi).trans h)⟩
  · rw [← B.inj, hlog hi, hlog hj] at h
    exact hroot.pow_inj hi hj h
  · rw [← B.inj, B.mul, hlog hi, hlog hj, hmod, pow_add]
  · have hj0 : gpow 0x03#8 (BitVec.ofNat 8 j) ≠ 0x00#8 := by
      rw [ne_eq, ← B.eq_zero, hlog hj]
      exact pow_ne_zero _ (hroot.ne_zero (by decide))
    refine ((eq_gdiv_iff hj0).2 (B.inj.1 ?_)).symm
    rw [B.mul, hmod, hlog hj, hlog hi, ← pow_add, Nat.sub_add_cancel (by omega), pow_add, hroot.pow_eq_one, mul_one]

/-- Settles O36: a zero divisor fails the one check; else the result is told by its product. -/
theorem divideAndInvertAnswerOrFault : Obligations.DivideAndInvertAnswerOrFault := fun rd ra rb s =>
  ⟨fun h => ⟨_, gmul_gdiv _ h, by rw [exec_gfdiv rd ra h, State.finishReg_eq]⟩,
    fun h => exec_fault_of_check .divideByZero rfl (decide_eq_true h),
    fun h => ⟨_, gmul_ginv h, by rw [exec_gfinv rd h, State.finishReg_eq]⟩,
    fun h => exec_fault_of_check .divideByZero rfl (decide_eq_true h)⟩

/-- Settles O35: none of the three has a check, and each writes one register and answers with it. -/
theorem addMultiplyPowerAnswer : Obligations.AddMultiplyPowerAnswer := fun rd _ _ s =>
  ⟨congrArg Host.Outcome.next (s.finishReg_eq rd _), congrArg Host.Outcome.next (s.finishReg_eq rd _),
    congrArg Host.Outcome.next (s.finishReg_eq rd _)⟩

end Sys2Proof.Proofs

/-! # Proofs of the statements about polynomial evaluation and split (41_polynomial_split.md)

A list of coefficients is read as a polynomial over the field `F` of Laws/FieldMap.lean: its values are those of Horner's loop, and
values at enough points determine it. The commands follow from `exec_of_firstFault`, `exec_of_pass` and the lemmas of
Laws/Split.lean; the settled statements stand at the end. -/

namespace Sys2Proof.Machine

/-! ## The polynomial of a list of coefficients -/

namespace ByteField

open Polynomial

variable {F : Type} [Field F] (B : ByteField F)
include B

/-- The polynomial of R130, constant term first. -/
noncomputable def poly (cs : List Byte) : F[X] := ∑ i ∈ Finset.range cs.length, C (B.φ (cs.getD i 0x00#8)) * X ^ i

theorem poly_eval (cs : List Byte) (x : Byte) : (B.poly cs).eval (B.φ x) = B.φ (Machine.hornerList cs x) := by
  rw [B.hornerList, poly, eval_finsetSum]
  simp

theorem poly_degree_lt (cs : List Byte) : (B.poly cs).degree < cs.length := by
  refine (degree_sum_le _ _).trans_lt ((Finset.sup_lt_iff (WithBot.bot_lt_coe _)).2 fun i hi => ?_)
  exact (degree_C_mul_X_pow_le i _).trans_lt (WithBot.coe_lt_coe.2 (Finset.mem_range.1 hi))

theorem poly_coeff {cs : List Byte} {i : Nat} (hi : i < cs.length) : (B.poly cs).coeff i = B.φ cs[i] := by
  simp [poly, coeff_C_mul, coeff_X_pow, hi]

theorem poly_inj {cs cs' : List Byte} (hl : cs.length = cs'.length) (h : B.poly cs = B.poly cs') : cs = cs' := by
  refine List.ext_getElem hl fun i hi hi' => B.inj.1 ?_
  rw [← B.poly_coeff hi, ← B.poly_coeff hi', h]

end ByteField

/-- A polynomial is determined by its values at as many distinct points as it has coefficients. -/
theorem eq_of_hornerList_eq {xs cs cs' : List Byte} (hx : xs.Nodup) (hn : cs.length = xs.length) (hn' : cs'.length = xs.length)
    (h : ∀ x ∈ xs, hornerList cs x = hornerList cs' x) : cs = cs' := by
  obtain ⟨F, _, ⟨B⟩⟩ := byteField_exists
  have hcard : xs.toFinset.card = xs.length := List.toFinset_card_of_nodup hx
  refine B.poly_inj (hn.trans hn'.symm)
    (Polynomial.eq_of_degrees_lt_of_eval_index_eq (v := B.φ) xs.toFinset B.bij.1.injOn ?_ ?_ fun x hmem => ?_)
  · rw [hcard, ← hn]; exact B.poly_degree_lt cs
  · rw [hcard, ← hn']; exact B.poly_degree_lt cs'
  · rw [B.poly_eval, B.poly_eval, h x (List.mem_toFinset.1 hmem)]

/-- At `0x00` a polynomial has its constant term as value; that is why no share has this point (R130, R137). -/
theorem hornerList_zero (c : Byte) (cs : List Byte) : hornerList (c :: cs) 0x00#8 = c := by
  show gadd (gmul (hornerList cs 0x00#8) 0x00#8) c = c
  rw [gmul_zero]
  exact BitVec.zero_xor

/-- What the points of `xs` see of a split with threshold `xs.length + 1`: the values there, as a function of the draws. -/
def sharesSeen (secret : Byte) (xs : List Byte) (draws : List.Vector Byte xs.length) : List.Vector Byte xs.length :=
  ⟨xs.map (hornerList (secret :: draws.toList)), List.length_map _⟩

/-- With the secret as value at `0x00`, the values seen determine the draws; there are as many of the one as of the other. -/
theorem sharesSeen_bijective (secret : Byte) {xs : List Byte} (hx : usablePoints xs) :
    Function.Bijective (sharesSeen secret xs) := by
  obtain ⟨hzero, hnodup⟩ := hx
  refine Finite.injective_iff_bijective.1 fun draws draws' h => List.Vector.toList_injective ?_
  have hseen := List.map_inj_left.1 (congrArg List.Vector.toList h)
  refine (List.cons.inj (eq_of_hornerList_eq (List.nodup_cons.2 ⟨hzero, hnodup⟩) (by simp) (by simp)
    (List.forall_mem_cons.2 ⟨?_, hseen⟩))).2
  rw [hornerList_zero, hornerList_zero]

theorem sharesSeen_eq_iff {secret : Byte} {xs : List Byte} {draws ys : List.Vector Byte xs.length} :
    sharesSeen secret xs draws = ys ↔
      ∀ i < xs.length, hornerList (secret :: draws.toList) (xs.getD i 0) = ys.toList.getD i 0 := by
  rw [← List.Vector.toList_injective.eq_iff]
  show xs.map _ = ys.toList ↔ _
  rw [List.ext_getElem_iff]
  simp +contextual

theorem hornerList_eq_polySum {cs : List Byte} (h : cs.length ≤ 256) (x : Byte) : hornerList cs x = polySum x 0 cs := by
  obtain ⟨F, _, ⟨B⟩⟩ := byteField_exists
  rw [← B.inj, B.hornerList, B.polySum cs x 0 (by omega)]
  simp only [Nat.zero_add]

theorem horner_eq_polySum (cf : Vector Byte 16) (k : Nat) (x : Byte) : horner cf k x = polySum x 0 (cf.toList.take k) := by
  refine hornerList_eq_polySum ?_ x
  rw [List.length_take, Vector.length_toList]
  omega

/-! ## EVAL -/

/-- A command whose checks fail faults with the first that does. -/
theorem exec_of_firstFault {i : Instr} {s : State} {f : FaultCode} (h : firstFault (checksOf s i) = some f) :
    exec i s = .next (s.afterFault f.code) := by
  rw [exec_eq, checked, h, ← State.raiseFault_eq]

theorem exec_eval {s : State} (rd : Fin 16) {ra : Fin 16} {k : Byte} (hk : 1 ≤ k.toNat) (hk' : k.toNat ≤ 16)
    (hx : s.r[ra] ≠ 0x00#8) : exec (.eval rd ra k) s = .next (s.finishReg rd (horner s.c k.toNat s.r[ra])) := by
  have hthreshold : ¬ (k.toNat = 0 ∨ 16 < k.toNat) := by omega
  have hreg : s.reg ra ≠ 0x00#8 := hx
  exact exec_of_pass (firstFault_eq_none.2 (by simp [checksOf, hthreshold, hreg])) (Nat.zero_le _)

/-! ## SPLIT -/

theorem split_checks_pass {s : State} {k n : Byte} (hv : s.secv = true) (hs : s.sec ≠ []) (hk : 1 ≤ k.toNat)
    (hkn : k.toNat ≤ n.toNat) (hn : n.toNat ≤ 16) : firstFault (checksOf s (.split k n)) = none := by
  have hk0 : k.toNat ≠ 0 := by omega
  exact firstFault_eq_none.2 (by simp [checksOf, State.seclen, hv, hs, hk0, hkn, hn])

/-- The share of a secret for point `x`: at each position the value there of that position's polynomial (R134). -/
def shareSlot (sec draws : List Byte) (k : Nat) (x : Byte) : Slot :=
  ⟨x, (List.range sec.length).map fun i => hornerList (positionCoefs sec draws k i) x⟩

/-- The slots that a split leaves, given a stream that has its draws in front. -/
theorem splitLoop_splitSlots {k : Nat} (hk : 1 ≤ k) (hk' : k ≤ 16) (n : Nat) {sec rnd : List Byte} (cf : Vector Byte 16)
    (hd : sec.length * (k - 1) ≤ rnd.length) :
    (splitLoop k sec (rnd.take (sec.length * (k - 1))) cf (splitSlots n)).2 =
      (List.range n).map fun j => shareSlot sec rnd k (BitVec.ofNat 8 (j + 1)) := by
  rw [splitLoop_slots hk hk' _ _ _ _ (by rw [List.length_take]; omega), splitSlots, List.map_map]
  refine List.map_congr_left fun j _ => congrArg (Slot.mk _) ?_
  exact List.map_congr_left fun i hi => by rw [positionCoefs_take (List.mem_range.1 hi)]

/-- The coefficient file that a split leaves, given such a stream. -/
theorem splitLoop_take_coefs {k : Nat} (hk : 1 ≤ k) {sec rnd : List Byte} (cf : Vector Byte 16) (slots : List Slot)
    (hd : sec.length * (k - 1) ≤ rnd.length) (hs : sec ≠ []) (m : Fin 16) :
    (splitLoop k sec (rnd.take (sec.length * (k - 1))) cf slots).1[m] =
      if m.val < k then (positionCoefs sec rnd k (sec.length - 1)).getD m.val 0x00#8 else cf[m] := by
  have hlast : sec.length - 1 < sec.length := Nat.sub_one_lt (by simpa using hs)
  rw [← positionCoefs_take hlast]
  exact splitLoop_coefs hk _ _ _ _ (by rw [List.length_take]; omega) hs m.val m.isLt

/-- A byte of a share, as the sum of the terms of R130. -/
theorem shareSlot_vals {sec draws : List Byte} {k i : Nat} (hk : 1 ≤ k) (hk' : k ≤ 16)
    (hd : sec.length * (k - 1) ≤ draws.length) (hi : i < sec.length) (x : Byte) :
    (shareSlot sec draws k x).vals[i]? = some (polySum x 0 (positionCoefs sec draws k i)) := by
  have hlen : (positionCoefs sec draws k i).length ≤ 256 := by rw [positionCoefs_length hk hi hd]; omega
  simp [shareSlot, hi, hornerList_eq_polySum hlen]

/-- With threshold 1 every polynomial is constant (R135). -/
theorem shareSlot_one_vals (sec draws : List Byte) (x : Byte) : (shareSlot sec draws 1 x).vals = sec := by
  have hconst (b : Byte) : hornerList [b] x = b := by
    show gadd (gmul 0x00#8 x) b = b
    rw [zero_gmul]
    exact BitVec.zero_xor
  refine List.ext_getElem (by simp [shareSlot]) fun i _ hi => ?_
  simp [shareSlot, positionCoefs, hconst, hi]

/-- SPLIT with its checks passed and its draws there (R133). -/
theorem exec_split {s : State} {k n : Byte} (hv : s.secv = true) (hs : s.sec ≠ []) (hk : 1 ≤ k.toNat)
    (hkn : k.toNat ≤ n.toNat) (hn : n.toNat ≤ 16) (hd : s.sec.length * (k.toNat - 1) ≤ s.rnd.length) :
    ∃ t : State, exec (.split k n) s = .next t ∧
      t = { s with
        c := t.c, shv := true, slots := t.slots, rnd := s.rnd.drop (s.sec.length * (k.toNat - 1)) }.afterOk (n.setWidth 16) ∧
      t.slots = (List.range n.toNat).map (fun j => shareSlot s.sec s.rnd k.toNat (BitVec.ofNat 8 (j + 1))) ∧
      ∀ m : Fin 16, t.c[m] =
        if m.val < k.toNat then (positionCoefs s.sec s.rnd k.toNat (s.sec.length - 1)).getD m.val 0 else s.c[m] :=
  ⟨_, exec_of_pass (split_checks_pass hv hs hk hkn hn) hd, State.succeed_eq _ _,
    splitLoop_splitSlots hk (hkn.trans hn) _ _ hd, splitLoop_take_coefs hk _ _ hd hs⟩

end Sys2Proof.Machine

namespace Sys2Proof.Proofs

open Sys2Proof.Machine

/-- Settles O59: for any secret byte, the values seen at the points are a bijective function of the draws. -/
theorem belowThresholdEverySecretIsExplainedOnce : Obligations.BelowThresholdEverySecretIsExplainedOnce := by
  intro xs ys secret hx hy
  obtain ⟨draws, hseen, hunique⟩ := (sharesSeen_bijective secret hx).existsUnique ⟨ys, hy⟩
  refine ⟨draws.toList, ⟨draws.toList_length, sharesSeen_eq_iff.1 hseen⟩, fun draws' ⟨hl, h⟩ => ?_⟩
  exact congrArg List.Vector.toList (hunique ⟨draws', hl⟩ (sharesSeen_eq_iff.2 h))

/-- Settles O46: Horner's loop is the sum of the terms, and the two checks fail in the order of R132. -/
theorem evalWritesThePolynomialsValue : Obligations.EvalWritesThePolynomialsValue := by
  intro rd ra k s
  refine ⟨fun hk hk' hx => ?_, fun hk => exec_of_firstFault (f := .invalidThreshold) ?_,
    fun hk hk' hx => exec_of_firstFault (f := .reservedX) ?_⟩
  · rw [exec_eval rd hk hk' hx, State.finishReg_eq, horner_eq_polySum]
  · simp [checksOf, firstFault_cons, hk]
  · have hthreshold : ¬ (k.toNat = 0 ∨ 16 < k.toNat) := by omega
    have hreg : s.reg ra = 0x00#8 := hx
    simp [checksOf, firstFault_cons, hthreshold, hreg]

/-- Settles O47, by the slots and the coefficient file that the loop over the positions leaves. -/
theorem splitSharesAreThePolynomialsValues : Obligations.SplitSharesAreThePolynomialsValues := by
  intro k n s hv hs hk hkn hn hd
  obtain ⟨t, he, ht, hslots, hcoefs⟩ := exec_split hv hs hk hkn hn hd
  refine ⟨t, he, ht, by simp [hslots], fun j sl hj => ?_, hcoefs⟩
  obtain ⟨-, rfl⟩ : j < n.toNat ∧ shareSlot s.sec s.rnd k.toNat (BitVec.ofNat 8 (j + 1)) = sl := by
    simpa [hslots, List.getElem?_eq_some_iff] using hj
  exact ⟨rfl, by simp [shareSlot], fun i hi => shareSlot_vals hk (hkn.trans hn) hd hi _⟩

/-- Settles O48: the first check that fails decides, and with none failing the missing draws do. -/
theorem splitFaultsInOrder : Obligations.SplitFaultsInOrder := by
  intro k n s
  refine ⟨fun hv => exec_of_firstFault (f := .nullInput) ?_, fun hv hs => exec_of_firstFault (f := .emptyInput) ?_,
    fun hv hs hk => exec_of_firstFault (f := .invalidThreshold) ?_,
    fun hv hs hk hkn hn => exec_of_firstFault (f := .tooManyShares) ?_, fun hv hs hk hkn hn hd => ?_⟩
  · simp [checksOf, firstFault_cons, hv]
  · simp [checksOf, firstFault_cons, hv, State.seclen, hs]
  · obtain hk | hk := hk <;> simp [checksOf, firstFault_cons, hv, State.seclen, hs, hk]
  · have hk0 : k.toNat ≠ 0 := by omega
    have hkn' : ¬ n.toNat < k.toNat := by omega
    simp [checksOf, firstFault_cons, hv, State.seclen, hs, hk0, hkn', hn]
  · rw [exec_eq, checked, split_checks_pass hv hs hk hkn hn, finish_of_lt (by exact hd)]
    rfl

/-- Settles O49: no draw is due, and constant polynomials have the secret bytes as values. -/
theorem thresholdOneCopiesTheSecret : Obligations.ThresholdOneCopiesTheSecret := by
  intro n s hv hs hn hn'
  obtain ⟨t, he, ht, hslots, -⟩ := exec_split (k := 1) hv hs le_rfl hn hn' (Nat.zero_le _)
  refine ⟨t, he, by rw [ht]; rfl, by simp [hslots], fun sl hsl => ?_⟩
  rw [hslots] at hsl
  obtain ⟨j, -, rfl⟩ := List.mem_map.1 hsl
  exact shareSlot_one_vals s.sec s.rnd _

end Sys2Proof.Proofs

/-! # Proofs of the statements about the Lagrange basis, interpolation and recovery (42_lagrange_recover.md)

Interpolation over distinct points gives the value at `0x00` of a polynomial of small degree through the slots' bytes, so a
recovered byte is told by its polynomial and not by the formula. The three commands share the checks on the points; each is brought
to them by one lemma. The settled statements stand at the end. -/

namespace Sys2Proof.Machine

/-! ## The functions of the engine -/

/-- The numerator by the places of the points (R151). -/
theorem num_eq_productExcept (xs : List Byte) (i : Nat) : num xs i = productExcept xs.length i fun j => xs.getD j 0 := by
  obtain ⟨F, _, ⟨B⟩⟩ := byteField_exists
  rw [← B.inj, B.num, B.foldr_filter]
  rfl

/-- The denominator by the places of the points (R152). -/
theorem den_eq_productExcept (xs : List Byte) (i : Nat) :
    den xs i = productExcept xs.length i fun j => gadd (xs.getD i 0) (xs.getD j 0) := by
  obtain ⟨F, _, ⟨B⟩⟩ := byteField_exists
  rw [← B.inj, B.den, B.foldr_filter]
  exact Finset.prod_congr rfl fun j _ => (B.add _ _).symm

theorem den_eq_zero_iff {xs : List Byte} {i : Nat} (hi : i < xs.length) :
    den xs i = 0x00#8 ↔ ∃ (j : Nat) (hj : j < xs.length), j ≠ i ∧ xs[j] = xs[i] := by
  obtain ⟨F, _, ⟨B⟩⟩ := byteField_exists
  rw [← B.eq_zero, B.den_eq_zero]
  exact exists_congr fun j => ⟨fun ⟨hj, hne, h⟩ => ⟨hj, hne, by simpa [hi, hj] using h⟩,
    fun ⟨hj, hne, h⟩ => ⟨hj, hne, by simpa [hi, hj] using h⟩⟩

theorem den_ne_zero {xs : List Byte} (h : xs.Nodup) {i : Nat} (hi : i < xs.length) : den xs i ≠ 0x00#8 := by
  obtain ⟨F, _, ⟨B⟩⟩ := byteField_exists
  exact B.den_ne_zero h hi

theorem num_ne_zero {xs : List Byte} (h : 0x00#8 ∉ xs) (i : Nat) : num xs i ≠ 0x00#8 := by
  obtain ⟨F, _, ⟨B⟩⟩ := byteField_exists
  rw [ne_eq, ← B.eq_zero, B.num, Finset.prod_eq_zero_iff]
  rintro ⟨j, hj, hz⟩
  have hj : j < xs.length := Finset.mem_range.1 (Finset.mem_of_mem_erase hj)
  rw [B.eq_zero, List.getD_eq_getElem _ _ hj] at hz
  exact h (hz ▸ List.getElem_mem hj)

namespace ByteField

variable {F : Type} [Field F] (B : ByteField F)
include B

/-- A factor of the formula of R150, over distinct points: every divisor is a difference of two of them. -/
theorem lagrangeFactor {xs : List Byte} (h : xs.Nodup) {i : Nat} (hi : i < xs.length) :
    B.φ (lagrangeAtZero.lagrangeFactor xs i) = B.φ (Machine.basis xs i) := by
  rw [B.basis h hi]
  refine (B.foldr_filter xs.length i _).trans (Finset.prod_congr rfl fun j hj => ?_)
  obtain ⟨hne, hj⟩ := Finset.mem_erase.1 hj
  have hdiff : gadd (xs.getD i 0x00#8) (xs.getD j 0x00#8) ≠ 0x00#8 := fun hz =>
    hne (nodup_getD h (Finset.mem_range.1 hj) hi (BitVec.xor_eq_zero_iff.1 hz).symm)
  rw [← B.add]
  exact B.gdiv _ hdiff

end ByteField

/-- The products over no other point are empty (R159). -/
theorem basis_singleton (x : Byte) : basis [x] 0 = 0x01#8 :=
  ((eq_gdiv_iff (by decide)).2 (gmul_one 0x01#8)).symm

theorem lagrangeFactor_eq_basis {xs : List Byte} (h : xs.Nodup) {i : Nat} (hi : i < xs.length) :
    lagrangeAtZero.lagrangeFactor xs i = basis xs i := by
  obtain ⟨F, _, ⟨B⟩⟩ := byteField_exists
  exact B.inj.1 (B.lagrangeFactor h hi)

/-- Over distinct points the reducer's passes give the formula of R150: the same terms, added from the other end. -/
theorem interpAt_eq_lagrangeAtZero {xs : List Byte} (h : xs.Nodup) (ys : List Byte) : interpAt xs ys = lagrangeAtZero xs ys := by
  have hcomm : Std.Commutative gadd := ⟨BitVec.xor_comm⟩
  have hassoc : Std.Associative gadd := ⟨BitVec.xor_assoc⟩
  have hterms : (List.range xs.length).map (fun i => gmul (ys.getD i 0) (basis xs i)) =
      (List.range xs.length).map fun i => gmul (ys.getD i 0) (lagrangeAtZero.lagrangeFactor xs i) :=
    List.map_congr_left fun i hi => by rw [lagrangeFactor_eq_basis h (List.mem_range.1 hi)]
  rw [interpAt, lagrangeAtZero, ← List.foldl_map (g := gadd), hterms, List.foldl_eq_foldr, List.foldr_map]

/-! ## Interpolation by polynomials -/

namespace ByteField

open Polynomial

variable {F : Type} [Field F] (B : ByteField F) {slots : List Slot} {p : Nat}
include B

/-- Interpolation over distinct points gives the value at 0 of a polynomial of degree below their number (R150, R160). -/
theorem interpAt_of_poly {P : F[X]} (hx : (slots.map Slot.x).Nodup) (hP : P.degree < slots.length)
    (h : ∀ sl ∈ slots, P.eval (B.φ sl.x) = B.φ (sl.vals.getD p 0)) :
    B.φ (Machine.interpAt (slots.map Slot.x) (bytesAt slots p)) = P.eval 0 := by
  rw [B.interpAt _ hx, ← B.eval_zero hx (by simpa using hP)]
  refine Finset.sum_congr rfl fun i hi => ?_
  have hi : i < slots.length := by simpa using hi
  have hbyte : B.φ ((bytesAt slots p).getD i 0x00#8) = P.eval (B.φ slots[i].x) := by
    simpa [bytesAt, hi] using (h _ (List.getElem_mem hi)).symm
  rw [hbyte]
  simp [hi]

/-- There is such a polynomial: the library's interpolant. -/
theorem exists_poly (hx : (slots.map Slot.x).Nodup) (p : Nat) :
    ∃ P : F[X], P.degree < slots.length ∧ ∀ sl ∈ slots, P.eval (B.φ sl.x) = B.φ (sl.vals.getD p 0) := by
  have hinj : Set.InjOn (fun sl : Slot => B.φ sl.x) slots.toFinset := fun sl hsl sl' hsl' he =>
    List.inj_on_of_nodup_map hx (List.mem_toFinset.1 hsl) (List.mem_toFinset.1 hsl') (B.inj.1 he)
  refine ⟨Lagrange.interpolate slots.toFinset (fun sl => B.φ sl.x) fun sl => B.φ (sl.vals.getD p 0), ?_, fun sl hsl => ?_⟩
  · exact (Lagrange.degree_interpolate_lt _ hinj).trans_le (WithBot.coe_le_coe.2 slots.toFinset_card_le)
  · exact Lagrange.eval_interpolate_at_node _ hinj (List.mem_toFinset.2 hsl)

end ByteField

/-- The same of a list of coefficients, no more than there are points. -/
theorem interpAt_of_hornerList {slots : List Slot} {p : Nat} {cs : List Byte} (hx : (slots.map Slot.x).Nodup)
    (hl : cs.length ≤ slots.length) (h : ∀ sl ∈ slots, sl.vals.getD p 0 = hornerList cs sl.x) :
    interpAt (slots.map Slot.x) (bytesAt slots p) = hornerList cs 0x00#8 := by
  obtain ⟨F, _, ⟨B⟩⟩ := byteField_exists
  have hdeg : (B.poly cs).degree < slots.length := (B.poly_degree_lt cs).trans_le (WithBot.coe_le_coe.2 hl)
  rw [← B.inj, ← B.poly_eval, B.zero, B.interpAt_of_poly hx hdeg fun sl hsl => by rw [B.poly_eval, h sl hsl]]

/-- Interpolation does not look at the order of the slots (R164): one polynomial goes through both lists. -/
theorem interpAt_perm {slots slots' : List Slot} (hx : (slots.map Slot.x).Nodup) (hp : slots'.Perm slots) (p : Nat) :
    interpAt (slots'.map Slot.x) (bytesAt slots' p) = interpAt (slots.map Slot.x) (bytesAt slots p) := by
  obtain ⟨F, _, ⟨B⟩⟩ := byteField_exists
  obtain ⟨P, hP, h⟩ := B.exists_poly hx p
  have hx' : (slots'.map Slot.x).Nodup := (hp.map _).nodup_iff.2 hx
  rw [← B.inj, B.interpAt_of_poly hx hP h,
    B.interpAt_of_poly hx' (by rwa [hp.length_eq]) fun sl hsl => h sl (hp.subset hsl)]

/-- The line through the values of a quadratic polynomial at two points, by its own coefficients (R162). -/
theorem hornerList_line_eq (b a1 a2 : Byte) {x1 x2 x : Byte} (hx : x = x1 ∨ x = x2) :
    hornerList [gadd b (gmul a2 (gmul x1 x2)), gadd a1 (gmul a2 (gadd x1 x2))] x = hornerList [b, a1, a2] x := by
  obtain ⟨F, _, ⟨B⟩⟩ := byteField_exists
  rw [← B.inj, B.hornerList, B.hornerList]
  simp only [List.length_cons, List.length_nil, Finset.sum_range_succ, Finset.sum_range_zero, List.getD_cons_zero,
    List.getD_cons_succ, B.add, B.mul]
  obtain rfl | rfl := hx
  · linear_combination B.add_self (B.φ a2 * B.φ x * B.φ x2)
  · linear_combination B.add_self (B.φ a2 * B.φ x1 * B.φ x)

/-! ## The checks of the three commands -/

theorem firstFault_xchecks_eq_none {s : State} : firstFault s.xchecks = none ↔ usablePoints (s.slots.map Slot.x) := by
  show _ ↔ usablePoints s.xs
  simp [firstFault_eq_none, State.xchecks, usablePoints, List.forall_mem_ne']

/-- The fault of unusable points: a point `0x00` before two equal ones (R155). -/
theorem firstFault_xchecks_of_unusable {s : State} {code : Byte} (h : (code = 8#8 ∧ 0x00#8 ∈ s.slots.map Slot.x) ∨
    (code = 7#8 ∧ 0x00#8 ∉ s.slots.map Slot.x ∧ ¬ (s.slots.map Slot.x).Nodup)) :
    ∃ f : FaultCode, f.code = code ∧ firstFault s.xchecks = some f := by
  obtain ⟨rfl, hz⟩ | ⟨rfl, hz, hd⟩ := h
  · have hz : 0x00#8 ∈ s.xs := hz
    exact ⟨.reservedX, rfl, by simp [State.xchecks, firstFault_cons, hz]⟩
  · have hz : 0x00#8 ∉ s.xs := hz
    have hd : ¬ s.xs.Nodup := hd
    exact ⟨.duplicateX, rfl, by simp [State.xchecks, firstFault_cons, hz, hd]⟩

theorem cnt_ne_zero {s : State} (hs : s.slots ≠ []) : s.cnt ≠ 0 := mt List.length_eq_zero_iff.1 hs

theorem slen_zero_eq {s : State} {len : Nat} (hs : s.slots ≠ []) (hl : ∀ sl ∈ s.slots, sl.vals.length = len) :
    s.slen 0 = len := by
  obtain ⟨sl, rest, h⟩ := List.exists_cons_of_ne_nil hs
  exact (State.slen_of_getElem? (sl := sl) (by simp [h])).trans (hl sl (by simp [h]))

/-- LBASIS of an open slot leaves the checks on the points to make. -/
theorem lbasis_checks {s : State} {rn rd i : Fin 16} (hne : rn ≠ rd) (hv : s.shv = true) (hi : i.val < s.slots.length) :
    firstFault (checksOf s (.lbasis rn rd i)) = firstFault s.xchecks := by
  have hopen : ¬ s.cnt ≤ i.val := hi.not_ge
  have hcnt : s.cnt ≠ 0 := by omega
  simp [checksOf, firstFault_cons, hne, hv, hopen, hcnt]

/-- INTERP of a byte that every slot has leaves the checks on the points to make. -/
theorem interp_checks {s : State} (rd : Fin 16) {pos : Half} (hv : s.shv = true) (hs : s.slots ≠ [])
    (hp : ∀ sl ∈ s.slots, pos.toNat < sl.vals.length) :
    firstFault (checksOf s (.interp rd pos)) = firstFault s.xchecks := by
  have hany : ¬ ∃ sl ∈ s.slots, sl.vals.length ≤ pos.toNat := fun ⟨sl, hsl, hle⟩ => (hp sl hsl).not_ge hle
  simp [checksOf, firstFault_cons, hv, cnt_ne_zero hs, hany]

/-- RECOVER of slots of one length leaves the checks on the points to make. -/
theorem recover_checks {s : State} {len : Nat} (hv : s.shv = true) (hs : s.slots ≠ [])
    (hl : ∀ sl ∈ s.slots, sl.vals.length = len) : firstFault (checksOf s .recover) = firstFault s.xchecks := by
  have hany : ¬ ∃ sl ∈ s.slots, ¬ sl.vals.length = s.slen 0 := by
    rintro ⟨sl, hsl, hne⟩
    exact hne ((hl sl hsl).trans (slen_zero_eq hs hl).symm)
  simp [checksOf, firstFault_cons, hv, cnt_ne_zero hs, hany]

/-! ## What they leave -/

theorem exec_lbasis {s : State} {rn rd i : Fin 16} (hne : rn ≠ rd) (hv : s.shv = true) (hi : i.val < s.slots.length)
    (hx : usablePoints (s.slots.map Slot.x)) :
    exec (.lbasis rn rd i) s =
      .next ({ s with r := (s.r.set rn (num s.xs i)).set rd (den s.xs i) }.afterOk (num s.xs i ++ den s.xs i)) := by
  rw [exec_of_pass ((lbasis_checks hne hv hi).trans (firstFault_xchecks_eq_none.2 hx)) (Nat.zero_le _), State.succeed_eq]
  rfl

theorem exec_interp {s : State} (rd : Fin 16) {pos : Half} (hv : s.shv = true) (hs : s.slots ≠ [])
    (hp : ∀ sl ∈ s.slots, pos.toNat < sl.vals.length) (hx : usablePoints (s.slots.map Slot.x)) :
    exec (.interp rd pos) s =
      .next ({ s with r := s.r.set rd (s.interp pos.toNat) }.afterOk ((s.interp pos.toNat).setWidth 16)) := by
  rw [exec_of_pass ((interp_checks rd hv hs hp).trans (firstFault_xchecks_eq_none.2 hx)) (Nat.zero_le _), State.succeed_eq]
  rfl

theorem exec_recover {s : State} {len : Nat} (hv : s.shv = true) (hs : s.slots ≠ [])
    (hl : ∀ sl ∈ s.slots, sl.vals.length = len) (hx : usablePoints (s.slots.map Slot.x)) :
    exec .recover s =
      .next ({ s with secv := true, sec := (List.range len).map s.interp }.afterOk (BitVec.ofNat 16 len)) := by
  rw [exec_of_pass ((recover_checks hv hs hl).trans (firstFault_xchecks_eq_none.2 hx)) (Nat.zero_le _), State.succeed_eq,
    ← slen_zero_eq hs hl]
  rfl

/-! ## Shares of one split -/

/-- Slots as a split with threshold `k` leaves them, in any number and order; none has the point `0x00` (R137). -/
def SharesOf (sec rnd : List Byte) (k : Nat) (slots : List Slot) : Prop :=
  ∀ sl ∈ slots, sl.x ≠ 0x00#8 ∧ sl = shareSlot sec rnd k sl.x

theorem sharesOf_split {k n : Byte} {s t : State} (hv : s.secv = true) (hs : s.sec ≠ []) (hk : 1 ≤ k.toNat)
    (hkn : k.toNat ≤ n.toNat) (hn : n.toNat ≤ 16) (hd : s.sec.length * (k.toNat - 1) ≤ s.rnd.length)
    (he : exec (.split k n) s = .next t) : SharesOf s.sec s.rnd k.toNat t.slots := by
  obtain ⟨t', he', -, hslots, -⟩ := exec_split hv hs hk hkn hn hd
  obtain rfl : t' = t := by simpa [he'] using he
  intro sl hsl
  obtain ⟨j, hj, rfl⟩ := List.mem_map.1 (hslots ▸ hsl)
  have hj : j < n.toNat := List.mem_range.1 hj
  refine ⟨fun hz => ?_, rfl⟩
  have hz : (j + 1) % 256 = 0 := congrArg BitVec.toNat hz
  omega

section

variable {sec rnd : List Byte} {k : Nat} {slots : List Slot}

theorem SharesOf.subset {slots' : List Slot} (h : SharesOf sec rnd k slots) (hsub : ∀ sl ∈ slots', sl ∈ slots) :
    SharesOf sec rnd k slots' := fun sl hsl => h sl (hsub sl hsl)

/-- The point tells the share, so different shares have different points (R137). -/
theorem SharesOf.usablePoints (h : SharesOf sec rnd k slots) (hn : slots.Nodup) : usablePoints (slots.map Slot.x) := by
  refine ⟨fun hz => ?_, hn.map_on fun sl hsl sl' hsl' hx => ?_⟩
  · obtain ⟨sl, hsl, hx⟩ := List.mem_map.1 hz
    exact (h sl hsl).1 hx
  · rw [(h sl hsl).2, (h sl' hsl').2, hx]

theorem SharesOf.length (h : SharesOf sec rnd k slots) : ∀ sl ∈ slots, sl.vals.length = sec.length := by
  intro sl hsl
  rw [(h sl hsl).2]
  simp [shareSlot]

theorem SharesOf.getD (h : SharesOf sec rnd k slots) {p : Nat} (hp : p < sec.length) :
    ∀ sl ∈ slots, sl.vals.getD p 0 = hornerList (positionCoefs sec rnd k p) sl.x := by
  intro sl hsl
  obtain ⟨-, hsh⟩ := h sl hsl
  rw [congrArg Slot.vals hsh]
  simp [shareSlot, hp]

end

section

variable {sec rnd : List Byte} {k : Nat} {u : State}

/-- RECOVER answers with code 0 on shares of one split, however few they are (R161, R162). -/
theorem exec_recover_of_sharesOf (h : SharesOf sec rnd k u.slots) (hv : u.shv = true) (hs : u.slots ≠ [])
    (hn : u.slots.Nodup) :
    exec .recover u = .next ({ u with secv := true, sec := (List.range sec.length).map u.interp }.afterOk
      (BitVec.ofNat 16 sec.length)) :=
  exec_recover hv hs h.length (h.usablePoints hn)

/-- So does INTERP at every position of the secret. -/
theorem exec_interp_of_sharesOf (h : SharesOf sec rnd k u.slots) (hv : u.shv = true) (hs : u.slots ≠ [])
    (hn : u.slots.Nodup) (rd : Fin 16) {pos : Half} (hp : pos.toNat < sec.length) :
    exec (.interp rd pos) u =
      .next ({ u with r := u.r.set rd (u.interp pos.toNat) }.afterOk ((u.interp pos.toNat).setWidth 16)) :=
  exec_interp rd hv hs (fun sl hsl => by rwa [h.length sl hsl]) (h.usablePoints hn)

/-- At least `k` shares give back the secret (R161). -/
theorem interp_eq_secret (h : SharesOf sec rnd k u.slots) (hn : u.slots.Nodup) (hk : 1 ≤ k) (hku : k ≤ u.slots.length)
    (hd : sec.length * (k - 1) ≤ rnd.length) {p : Nat} (hp : p < sec.length) : u.interp p = sec[p] := by
  have hcount : (positionCoefs sec rnd k p).length ≤ u.slots.length := by rwa [positionCoefs_length hk hp hd]
  calc u.interp p = hornerList (positionCoefs sec rnd k p) 0x00#8 :=
        interpAt_of_hornerList (h.usablePoints hn).2 hcount (h.getD hp)
    _ = sec[p] := by rw [positionCoefs, hornerList_zero, List.getD_eq_getElem _ _ hp]

theorem exists_positionCoefs_three {p : Nat} (hp : p < sec.length) (hd : sec.length * 2 ≤ rnd.length) :
    ∃ a1 a2 : Byte, positionCoefs sec rnd 3 p = [sec.getD p 0, a1, a2] := by
  have hlen := positionCoefs_length (k := 3) (by decide) hp hd
  unfold positionCoefs at hlen ⊢
  obtain ⟨a1, a2, h⟩ := List.length_eq_two.1 (Nat.succ.inj hlen)
  exact ⟨a1, a2, by rw [h]⟩

/-- Two shares of a split with threshold 3 give the secret byte XOR `a_2 x_1 x_2` (R162). -/
theorem interp_two_of_three {sl sl' : Slot} (h : SharesOf sec rnd 3 u.slots) (hu : u.slots = [sl, sl']) (hne : sl ≠ sl')
    (hd : sec.length * 2 ≤ rnd.length) {p : Nat} (hp : p < sec.length) :
    u.interp p = gadd (sec.getD p 0) (gmul ((positionCoefs sec rnd 3 p).getD 2 0) (gmul sl.x sl'.x)) := by
  obtain ⟨a1, a2, hcs⟩ := exists_positionCoefs_three hp hd
  have hn : u.slots.Nodup := by simpa [hu] using hne
  have hx (a : Slot) (ha : a ∈ u.slots) : a.x = sl.x ∨ a.x = sl'.x := by
    obtain rfl | rfl : a = sl ∨ a = sl' := by simpa [hu] using ha
    · exact .inl rfl
    · exact .inr rfl
  calc u.interp p = hornerList [gadd (sec.getD p 0) (gmul a2 (gmul sl.x sl'.x)), gadd a1 (gmul a2 (gadd sl.x sl'.x))] 0x00#8 :=
        interpAt_of_hornerList (h.usablePoints hn).2 (by simp [hu]) fun a ha => by
          rw [h.getD hp a ha, hcs, hornerList_line_eq _ a1 a2 (hx a ha)]
    _ = _ := by rw [hornerList_zero, hcs]; rfl

end

theorem gadd_gmul_eq_self_iff {b a c : Byte} (hc : c ≠ 0x00#8) : gadd b (gmul a c) = b ↔ a = 0x00#8 := by
  have hself : gadd b (gmul a c) = b ↔ gmul a c = 0x00#8 := by simp [gadd]
  rw [hself, gmul_eq_zero, or_iff_left hc]

/-! ## DivideByZero -/

/-- Only GFDIV and GFINV check for a zero divisor (R163). -/
theorem divideByZero_mem_checksOf {i : Instr} {s : State} {b : Bool} (h : (b, FaultCode.divideByZero) ∈ checksOf s i) :
    (∃ rd ra rb, i = .gfdiv rd ra rb) ∨ (∃ rd ra, i = .gfinv rd ra) := by
  cases i with
  | gfdiv rd ra rb => exact .inl ⟨rd, ra, rb, rfl⟩
  | gfinv rd ra => exact .inr ⟨rd, ra, rfl⟩
  | _ => simp [checksOf, State.xchecks] at h

theorem divideByZero_of_response {i : Instr} {s t : State} (he : exec i s = .next t)
    (hr : t.rsps = s.rsps ++ [0x06000000#32]) : (∃ rd ra rb, i = .gfdiv rd ra rb) ∨ (∃ rd ra, i = .gfinv rd ra) := by
  have hcode : responseCode 0x06000000#32 = FaultCode.divideByZero.code := by decide
  obtain ⟨f, hf, rfl⟩ | ⟨-, -, rfl⟩ | ⟨-, -, rfl⟩ := exec_next_cases he
  · have hq : faultResponse f = 0x06000000#32 := by simpa using hr
    obtain rfl : f = .divideByZero := FaultCode.code_injective (by rw [← responseCode_faultResponse, hq, hcode])
    exact divideByZero_mem_checksOf (firstFault_mem hf)
  · simp at hr
  · have hq : okResponse (effect s i).2 = 0x06000000#32 := by simpa [(effect_frame s i).1] using hr
    rw [← hq, responseCode_okResponse] at hcode
    exact absurd hcode (by decide)

end Sys2Proof.Machine

namespace Sys2Proof.Proofs

open Sys2Proof.Machine

/-- Settles O57: at least `k` shares determine the polynomial of every position, whose constant term is the secret byte. -/
theorem splitThenRecoverRestoresTheSecret : Obligations.SplitThenRecoverRestoresTheSecret := by
  intro k n s t u hv hs hk hkn hn hd he huv hku hnodup hsub
  have hsh := (sharesOf_split hv hs hk hkn hn hd he).subset hsub
  have hne : u.slots ≠ [] := List.ne_nil_of_length_pos (by omega)
  have hbyte {p : Nat} (hp : p < s.sec.length) : u.interp p = s.sec[p] := interp_eq_secret hsh hnodup hk hku hd hp
  refine ⟨?_, fun rd pos b hb => ?_⟩
  · have hsec : (List.range s.sec.length).map u.interp = s.sec :=
      List.ext_getElem (by simp) fun p _ hp => by simpa using hbyte hp
    rw [exec_recover_of_sharesOf hsh huv hne hnodup, hsec]
  · obtain ⟨hp, rfl⟩ := List.getElem?_eq_some_iff.1 hb
    rw [exec_interp_of_sharesOf hsh huv hne hnodup rd hp, hbyte hp]

/-- Settles O58: the two shares are interpolated by a line, whose constant term misses the secret byte by `a_2 x_1 x_2`. -/
theorem underThresholdRecoveryIsNotDetected : Obligations.UnderThresholdRecoveryIsNotDetected := by
  intro n s t u sl sl' hv hs hn hn' hd he huv hu hsl hsl' hne
  have hsh : SharesOf s.sec s.rnd 3 u.slots :=
    (sharesOf_split (k := 3) hv hs (by decide) hn hn' hd he).subset (by simp [hu, hsl, hsl'])
  have hnodup : u.slots.Nodup := by simpa [hu] using hne
  have hnil : u.slots ≠ [] := by simp [hu]
  have hxx : gmul sl.x sl'.x ≠ 0x00#8 := fun hz =>
    (gmul_eq_zero.1 hz).elim (hsh sl (by simp [hu])).1 (hsh sl' (by simp [hu])).1
  have hget {p : Nat} (hp : p < s.sec.length) : ((List.range s.sec.length).map u.interp).getD p 0 = u.interp p := by
    simp [hp]
  refine ⟨(List.range s.sec.length).map u.interp, by simp, fun p hp => ?_, fun rd pos hp => ?_,
    exec_recover_of_sharesOf hsh huv hnil hnodup⟩
  · have hbyte := interp_two_of_three hsh hu hne hd hp
    rw [hget hp, hbyte]
    exact ⟨_, rfl, rfl, gadd_gmul_eq_self_iff hxx⟩
  · rw [hget hp]
    exact exec_interp_of_sharesOf hsh huv hnil hnodup rd hp

/-- Settles O50, by the products over the places of the other points. -/
theorem lbasisWritesNumeratorAndDenominator : Obligations.LbasisWritesNumeratorAndDenominator := by
  intro rn rd i s hne hv hi hx
  have hlen : (s.slots.map Slot.x).length = s.slots.length := List.length_map _
  refine ⟨_, _, rfl, rfl, ?_⟩
  rw [← hlen, ← num_eq_productExcept, ← den_eq_productExcept]
  exact exec_lbasis hne hv hi hx

/-- Settles O51: over distinct points the reducer computes the formula. -/
theorem interpWritesTheRecoveryFormula : Obligations.InterpWritesTheRecoveryFormula := by
  intro rd pos s hv hs hp hx
  refine ⟨_, rfl, ?_⟩
  rw [← interpAt_eq_lagrangeAtZero hx.2]
  exact exec_interp rd hv hs hp hx

/-- Settles O52, by the same at every position. -/
theorem recoverReplacesTheSecret : Obligations.RecoverReplacesTheSecret := by
  intro len s hv hs hl hx
  simp only [← interpAt_eq_lagrangeAtZero hx.2]
  exact exec_recover hv hs hl hx

/-- Settles O53: the first check that fails decides; with a command's own checks passed, the checks on the points do. -/
theorem lagrangeCommandsFaultInOrder : Obligations.LagrangeCommandsFaultInOrder := by
  intro rn rd i pos s hne
  refine ⟨fun hv => ?_, fun hv hs => ?_, fun hv hs hi => ?_, fun hv hp => ?_, fun hv hl => ?_, fun code hv hs hx => ?_⟩
  · refine ⟨exec_of_firstFault (f := .nullInput) ?_, exec_of_firstFault (f := .nullInput) ?_,
      exec_of_firstFault (f := .nullInput) ?_⟩ <;> simp [checksOf, firstFault_cons, hne, hv]
  · have hcnt : s.cnt = 0 := by simp [State.cnt, hs]
    refine ⟨exec_of_firstFault (f := .emptyInput) ?_, exec_of_firstFault (f := .emptyInput) ?_,
      exec_of_firstFault (f := .emptyInput) ?_⟩ <;> simp [checksOf, firstFault_cons, hne, hv, hcnt]
  · have hclosed : s.cnt ≤ i.val := hi
    exact exec_of_firstFault (f := .addrRange) (by simp [checksOf, firstFault_cons, hne, hv, cnt_ne_zero hs, hclosed])
  · have hcnt : s.cnt ≠ 0 := hp.elim fun _ h => cnt_ne_zero (List.ne_nil_of_mem h.1)
    exact exec_of_firstFault (f := .addrRange) (by simp [checksOf, firstFault_cons, hv, hcnt, hp])
  · obtain ⟨sl, hsl, sl', hsl', hdiff⟩ := hl
    have hcnt : s.cnt ≠ 0 := cnt_ne_zero (List.ne_nil_of_mem hsl)
    have hany : ∃ a ∈ s.slots, ¬ a.vals.length = s.slen 0 := by
      by_contra! h
      exact hdiff ((h sl hsl).trans (h sl' hsl').symm)
    exact exec_of_firstFault (f := .sizeMismatch) (by simp [checksOf, firstFault_cons, hv, hcnt, hany])
  · obtain ⟨f, rfl, hf⟩ := firstFault_xchecks_of_unusable hx
    refine ⟨fun hi => exec_of_firstFault ((lbasis_checks hne hv hi).trans hf),
      fun hp => exec_of_firstFault ((interp_checks rd hv hs hp).trans hf), fun hl => ?_⟩
    obtain ⟨sl, hsl⟩ := List.exists_mem_of_ne_nil _ hs
    exact exec_of_firstFault ((recover_checks hv hs fun sl' hsl' => hl sl' hsl' sl hsl).trans hf)

/-- Settles O54: a denominator is a product of differences of points, and only two commands have a check for the code. -/
theorem noDivisionByZeroInsideTheLagrangeCommands : Obligations.NoDivisionByZeroInsideTheLagrangeCommands :=
  ⟨fun _ _ hi => den_eq_zero_iff hi, fun _ i hx hi => ⟨den_ne_zero hx.2 hi, num_ne_zero hx.1 i⟩,
    fun _ _ _ he hr => divideByZero_of_response he hr⟩

/-- Settles O55: the products over no other point are empty, so the reducer's one term is the slot's byte times `0x01`. -/
theorem onePointReturnsItsOwnByte : Obligations.OnePointReturnsItsOwnByte := by
  intro s sl hs _
  have hxs : s.xs = [sl.x] := by rw [State.xs, hs, List.map_singleton]
  refine ⟨by rw [hxs]; rfl, by rw [hxs]; rfl, by rw [hxs, basis_singleton], fun p v hv => ?_⟩
  have hys : bytesAt s.slots p = [v] := by simp [bytesAt, hs, hv]
  calc s.interp p = gadd 0x00#8 (gmul v (basis [sl.x] 0)) := by rw [State.interp, hxs, hys]; rfl
    _ = v := by rw [basis_singleton, gmul_one]; exact BitVec.zero_xor

/-- Settles O56: the bytes of the slots, in any order, are the values of one polynomial. -/
theorem orderOfSlotsIsImmaterial : Obligations.OrderOfSlotsIsImmaterial := fun _ _ p hx hp => interpAt_perm hx.2 hp p

end Sys2Proof.Proofs

/-! # Proofs of the statements about data movement (43_data_movement.md)

What `Append` leaves in either byte space is said once, as a rule for reads (`State.memRead_append`). A fault comes from
`exec_of_firstFault`, a success from `exec_of_pass`, and the register form of a push or an opening does what the immediate form
does with that register's byte. The settled statements stand at the end. -/

namespace Sys2Proof.Machine

/-! ## Reads of the byte spaces -/

theorem State.bytes_of_getElem? {s : State} {j : Nat} {sl : Slot} (h : s.slots[j]? = some sl) : s.bytes (.sh j) = sl.vals := by
  simp [State.bytes, h]

theorem State.memRead_of_getElem? {s : State} {j : Nat} {sl : Slot} (h : s.slots[j]? = some sl) (a : Nat) :
    s.memRead (.sh j) a = sl.vals[a]? := by
  rw [State.memRead, State.bytes_of_getElem? h]

@[simp] theorem State.memRead_succeed (s : State) (v : Half) (sp : Space) (a : Nat) :
    (s.succeed v).memRead sp a = s.memRead sp a := by
  cases sp <;> rfl

/-- The pushed slot. -/
theorem getElem?_modify_push {slots : List Slot} {j : Nat} {sl : Slot} (h : slots[j]? = some sl) (v : Byte) :
    (slots.modify j fun sl => sl.push v)[j]? = some (sl.push v) := by
  rw [List.getElem?_modify, h]
  simp

/-- A push moves no evaluation point. -/
theorem map_x_modify_push (slots : List Slot) (j : Nat) (v : Byte) :
    (slots.modify j fun sl => sl.push v).map Slot.x = slots.map Slot.x := by
  refine List.ext_getElem (by simp) fun n _ _ => ?_
  simp only [List.getElem_map, List.getElem_modify]
  split <;> rfl

/-- The spaces that can be appended to (00_scope.md R9): the secret buffer, and a slot that is open. -/
def State.HasSpace (s : State) : Space → Prop
  | .sec => True
  | .sh j => j < s.cnt

/-- `Append` puts the byte after those of its space. -/
theorem State.bytes_append_self {s : State} {sp : Space} (h : s.HasSpace sp) (v : Byte) :
    (s.append sp v).bytes sp = s.bytes sp ++ [v] := by
  cases sp with
  | sec => rfl
  | sh j =>
    have hj : s.slots[j]? = some (s.slots[j]'h) := List.getElem?_eq_getElem h
    rw [State.bytes_of_getElem? hj]
    exact State.bytes_of_getElem? (s := s.append (.sh j) v) (getElem?_modify_push hj v)

/-- `Append` leaves the bytes of every other space. -/
theorem State.bytes_append_of_ne (s : State) {sp sp' : Space} (h : sp' ≠ sp) (v : Byte) :
    (s.append sp v).bytes sp' = s.bytes sp' := by
  cases sp with
  | sec =>
    cases sp' with
    | sec => exact absurd rfl h
    | sh j => rfl
  | sh i =>
    cases sp' with
    | sec => rfl
    | sh j =>
      have hij : i ≠ j := fun he => h (he ▸ rfl)
      simp [State.bytes, hij]

/-- After `Append` the byte at the old length is the new one, and every other read is as before (20_memory.md R53). -/
theorem State.memRead_append {s : State} {sp : Space} (h : s.HasSpace sp) (v : Byte) (sp' : Space) (a : Nat) :
    (s.append sp v).memRead sp' a = if sp' = sp ∧ a = (s.bytes sp).length then some v else s.memRead sp' a := by
  by_cases hsp : sp' = sp
  · subst hsp
    rw [State.memRead, State.bytes_append_self h, State.memRead]
    obtain hlt | rfl | hgt := lt_trichotomy a (s.bytes sp').length
    · rw [List.getElem?_append_left hlt, if_neg fun he => hlt.ne he.2]
    · rw [List.getElem?_concat_length, if_pos ⟨rfl, rfl⟩]
    · rw [if_neg fun he => hgt.ne' he.2, List.getElem?_eq_none hgt.le, List.getElem?_eq_none (by simpa using hgt)]
  · rw [State.memRead, State.bytes_append_of_ne s hsp, if_neg fun he => hsp he.1, State.memRead]

/-! ## The commands with their checks passed -/

theorem exec_of_wait {i : Instr} {s : State} (hc : firstFault (checksOf s i) = none) (hd : s.rnd.length < drawsOf s i) :
    exec i s = .next (s.hold i) := by
  rw [exec_eq, checked, hc, finish_of_lt hd]

theorem exec_secpushi {s : State} (v : Byte) (hv : s.secv = true) (hl : s.seclen ≠ s.lmax) :
    exec (.secpushi v) s = .next ((s.append .sec v).succeed (count16 (s.seclen + 1))) :=
  exec_of_pass (by simp [checksOf, firstFault_eq_none, hv, hl]) (Nat.zero_le _)

theorem exec_secrd {s : State} (rd : Fin 16) {addr : Half} {v : Byte} (hv : s.secv = true)
    (ha : s.memRead .sec addr.toNat = some v) : exec (.secrd rd addr) s = .next (s.finishReg rd v) := by
  have hlt : addr.toNat < s.seclen := (List.getElem?_eq_some_iff.1 ha).1
  rw [exec_of_pass (by simp [checksOf, firstFault_eq_none, hv, hlt]) (Nat.zero_le _), effect, ha]
  rfl

theorem exec_shrd {s : State} (rd : Fin 16) {j : Fin 16} {addr : Half} {sl : Slot} {v : Byte} (hv : s.shv = true)
    (hj : s.slots[j.val]? = some sl) (ha : sl.vals[addr.toNat]? = some v) :
    exec (.shrd rd j addr) s = .next (s.finishReg rd v) := by
  have hopen : j.val < s.cnt := (List.getElem?_eq_some_iff.1 hj).1
  have hlt : addr.toNat < s.slen j.val := (State.slen_of_getElem? hj).symm ▸ (List.getElem?_eq_some_iff.1 ha).1
  rw [exec_of_pass (by simp [checksOf, firstFault_eq_none, hv, hopen, hlt]) (Nat.zero_le _), effect,
    State.memRead_of_getElem? hj, ha]
  rfl

theorem exec_shx {s : State} (rd : Fin 16) {j : Fin 16} {sl : Slot} (hv : s.shv = true) (hj : s.slots[j.val]? = some sl) :
    exec (.shx rd j) s = .next (s.finishReg rd sl.x) := by
  have hopen : j.val < s.cnt := (List.getElem?_eq_some_iff.1 hj).1
  have hx : s.xs.getD j.val 0 = sl.x := by simp [State.xs, hj]
  rw [exec_of_pass (by simp [checksOf, firstFault_eq_none, hv, hopen]) (Nat.zero_le _), effect, hx]
  rfl

end Sys2Proof.Machine

namespace Sys2Proof.Proofs

open Sys2Proof.Machine

/-- Settles O40: SECPUSH pushes as SECPUSHI does, by one `Append` behind two checks. -/
theorem secretPushAppendsOneByte : Obligations.SecretPushAppendsOneByte := by
  intro i v s hi
  have himm : exec i s = exec (.secpushi v) s := by obtain ⟨ra, rfl, rfl⟩ | rfl := hi <;> rfl
  rw [himm]
  refine ⟨fun hv hl => ?_, fun hv => exec_of_firstFault (f := .nullInput) ?_,
    fun hv hl => exec_of_firstFault (f := .capacity) ?_⟩
  · have hread := State.memRead_append (s := s) (sp := .sec) trivial v
    refine ⟨_, exec_secpushi v hv hl, State.succeed_eq _ _, by simp, ?_, fun sp a hne => ?_⟩
    · rw [State.memRead_succeed, hread, if_pos ⟨rfl, rfl⟩]
    · rw [State.memRead_succeed, hread]
      exact if_neg hne
  · simp [checksOf, firstFault_cons, hv]
  · simp [checksOf, firstFault_cons, hv, State.seclen, hl]

/-- Settles O43: SHPUSH pushes as SHPUSHI does, by one `Append` behind three checks. -/
theorem sharePushAppendsOneByte : Obligations.SharePushAppendsOneByte := by
  intro i j v s hi
  have himm : exec i s = exec (.shpushi j v) s := by obtain ⟨ra, rfl, rfl⟩ | rfl := hi <;> rfl
  rw [himm]
  refine ⟨fun sl hv hj hl => ?_, fun hv => exec_of_firstFault (f := .nullInput) ?_,
    fun hv hclosed => exec_of_firstFault (f := .addrRange) ?_, fun sl hv hj hl => exec_of_firstFault (f := .capacity) ?_⟩
  · have hopen : j.val < s.cnt := (List.getElem?_eq_some_iff.1 hj).1
    have hread := State.memRead_append (s := s) (sp := .sh j.val) hopen v
    rw [State.bytes_of_getElem? hj] at hread
    rw [← State.slen_of_getElem? hj] at hl
    refine ⟨_, exec_shpushi v hv hopen hl, ?_, map_x_modify_push _ _ _, ?_, ⟨_, getElem?_modify_push hj v, by simp⟩,
      fun sp a hne => ?_⟩
    · rw [State.slen_of_getElem? hj]
      exact State.succeed_eq _ _
    · rw [State.memRead_succeed, hread, if_pos ⟨rfl, rfl⟩]
    · rw [State.memRead_succeed, hread, if_neg hne]
  · simp [checksOf, firstFault_cons, hv]
  · have hclosed : s.cnt ≤ j.val := hclosed
    simp [checksOf, firstFault_cons, hv, hclosed]
  · have hopen : j.val < s.cnt := (List.getElem?_eq_some_iff.1 hj).1
    simp [checksOf, firstFault_cons, hv, hopen, State.slen_of_getElem? hj, hl]

/-- Settles O37: none of the three has a check. -/
theorem registerMovesAnswer : Obligations.RegisterMovesAnswer := fun rd _ _ s =>
  ⟨congrArg Host.Outcome.next (s.finishReg_eq rd _), congrArg Host.Outcome.next (s.finishReg_eq rd _),
    congrArg Host.Outcome.next (State.succeed_eq _ _)⟩

/-- Settles O38: none of the three has a check, and whether the stream has a byte decides between LDCR's write and its wait. -/
theorem coefficientLoadsAnswer : Obligations.CoefficientLoadsAnswer := by
  intro k ra imm s
  refine ⟨congrArg Host.Outcome.next (State.succeed_eq _ _), congrArg Host.Outcome.next (State.succeed_eq _ _),
    fun b bs h => ?_, fun h => exec_of_wait rfl (by simp [drawsOf, h])⟩
  rw [exec_of_pass rfl (by simp [drawsOf, h]), State.succeed_eq]
  simp only [effect, h]
  rfl

/-- Settles O39: neither has a check, and each writes its existence bit and an empty list. -/
theorem newContainersAreEmpty : Obligations.NewContainersAreEmpty := fun _ =>
  ⟨congrArg Host.Outcome.next (State.succeed_eq _ _), congrArg Host.Outcome.next (State.succeed_eq _ _)⟩

/-- Settles O41: a byte at `addr` means that both checks pass. -/
theorem secretReadAnswersOrFaults : Obligations.SecretReadAnswersOrFaults := by
  intro rd addr s
  refine ⟨fun v hv ha => by rw [exec_secrd rd hv ha, State.finishReg_eq],
    fun hv => exec_of_firstFault (f := .nullInput) ?_, fun hv ha => exec_of_firstFault (f := .addrRange) ?_⟩
  · simp [checksOf, firstFault_cons, hv]
  · simp [checksOf, firstFault_cons, hv, State.seclen, ha]

/-- Settles O42: SHOPEN opens as SHOPENI does, and no check looks at the point. -/
theorem openingASlotAnswersItsNumber : Obligations.OpeningASlotAnswersItsNumber := by
  intro i x s hi
  have himm : exec i s = exec (.shopeni x) s := by obtain ⟨ra, rfl, rfl⟩ | rfl := hi <;> rfl
  rw [himm]
  refine ⟨fun hv hn => ?_, fun hv => exec_of_firstFault (f := .nullInput) ?_,
    fun hv hn => exec_of_firstFault (f := .capacity) ?_⟩
  · rw [exec_shopeni x hv hn, State.succeed_eq]
    rfl
  · simp [checksOf, firstFault_cons, hv]
  · simp [checksOf, firstFault_cons, hv, State.cnt, hn]

/-- Settles O44: an open slot and a byte at `addr` mean that every check passes; SHRD and SHX share the first two. -/
theorem shareReadsAnswerOrFault : Obligations.ShareReadsAnswerOrFault := by
  intro rd j addr s
  refine ⟨fun sl v hv hj ha => ?_, fun sl hv hj ha => ?_, fun sl hv hj => ?_, fun hv => ?_, fun hv hclosed => ?_⟩
  · rw [exec_shrd rd hv hj ha, State.finishReg_eq]
  · exact exec_of_firstFault (f := .addrRange) (by simp [checksOf, firstFault_cons, hv, State.slen_of_getElem? hj, ha])
  · rw [exec_shx rd hv hj, State.finishReg_eq]
  · refine ⟨exec_of_firstFault (f := .nullInput) ?_, exec_of_firstFault (f := .nullInput) ?_⟩ <;>
      simp [checksOf, firstFault_cons, hv]
  · have hclosed : s.cnt ≤ j.val := hclosed
    refine ⟨exec_of_firstFault (f := .addrRange) ?_, exec_of_firstFault (f := .addrRange) ?_⟩ <;>
      simp [checksOf, firstFault_cons, hv, hclosed]

end Sys2Proof.Proofs

/-! # Proofs of the statements about the system commands (44_system.md)

What RDCSR answers is the register file of R34 alone (`exec_rdcsr_of_csr`, `exec_rdcsr_of_unassigned`); so the rules below say which
value each number names, and what stands in which bits of STATUS. The settled statement stands at the end. -/

namespace Sys2Proof.Machine

/-! ## The control and status registers -/

theorem State.slen_of_closed {s : State} {j : Nat} (h : s.slots.length ≤ j) : s.slen j = 0 := by
  simp [State.slen, h]

/-- The numbers `0x10 + j` name the lengths of the slots (10_state.md R34). -/
theorem State.csr_slot (s : State) (j : Fin 16) : s.csr (BitVec.ofNat 8 (0x10 + j.val)) = some (count16 (s.slen j.val)) := by
  fin_cases j <;> rfl

/-- Above the six fixed registers, a number outside `0x10..0x1F` names none (10_state.md R34). -/
theorem State.csr_unassigned (s : State) {n : Byte} (hfixed : 0x05 < n.toNat) (hslot : n.toNat < 0x10 ∨ 0x1F < n.toNat) :
    s.csr n = none := by
  have hne {m : Byte} (hm : m.toNat ≤ 0x05) : n ≠ m := fun he => (he ▸ hfixed).not_ge hm
  have hout : ¬ (0x10 ≤ n.toNat ∧ n.toNat ≤ 0x1F) := by omega
  simp [State.csr, hne, hout]

/-- The bit that an existence flag puts at place `k` of STATUS. -/
theorem getLsbD_ite_twoPow (b : Bool) {k : Nat} (hk : k < 16) (i : Nat) :
    (if b then BitVec.twoPow 16 k else 0).getLsbD i = (b && decide (i = k)) := by
  cases b with
  | false => simp
  | true => simp [BitVec.getLsbD_twoPow, hk, eq_comm]

/-- STATUS bit by bit (10_state.md R35): LAST has no bit above 7, and the existence bits stand alone at 8 and 9. -/
theorem State.getLsbD_status (s : State) (i : Nat) :
    s.status.getLsbD i = (s.last.getLsbD i || (s.secv && decide (i = 8)) || (s.shv && decide (i = 9))) := by
  have hlast : (zext16 s.last).getLsbD i = s.last.getLsbD i := by
    rw [zext16, BitVec.getLsbD_setWidth, Bool.and_eq_right_iff_imp, decide_eq_true_iff]
    exact fun h => (BitVec.lt_of_getLsbD h).trans (by decide)
  have hsecv := getLsbD_ite_twoPow s.secv (k := 8) (by decide) i
  have hshv := getLsbD_ite_twoPow s.shv (k := 9) (by decide) i
  rw [← hlast, ← hsecv, ← hshv, ← BitVec.getLsbD_or, ← BitVec.getLsbD_or]
  rfl

/-- The fields of STATUS (10_state.md R35). -/
theorem State.status_fields (s : State) :
    s.status.extractLsb' 0 8 = s.last ∧ s.status.getLsbD 8 = s.secv ∧ s.status.getLsbD 9 = s.shv ∧
      s.status.extractLsb' 10 6 = 0#6 := by
  have hbyte (i : Nat) (hi : 8 ≤ i) : s.last.getLsbD i = false := s.last.getLsbD_of_ge i hi
  refine ⟨BitVec.eq_of_getLsbD_eq fun i hi => ?_, ?_, ?_, BitVec.eq_of_getLsbD_eq fun i hi => ?_⟩
  · simp [State.getLsbD_status, hi, hi.ne, show i ≠ 9 by omega]
  · rw [State.getLsbD_status, hbyte 8 le_rfl]
    simp
  · rw [State.getLsbD_status, hbyte 9 (by decide)]
    simp
  · simp [State.getLsbD_status, hbyte (10 + i) (by omega), show 10 + i ≠ 8 by omega, show 10 + i ≠ 9 by omega]

/-! ## RDCSR -/

theorem exec_rdcsr_of_csr {s : State} {n : Byte} {v : Half} (h : s.csr n = some v) :
    exec (.rdcsr n) s = .next (s.afterOk v) := by
  rw [exec_of_pass (by simp [checksOf, firstFault_eq_none, h]) (Nat.zero_le _), State.succeed_eq]
  simp [effect, h]

theorem exec_rdcsr_of_unassigned {s : State} {n : Byte} (h : s.csr n = none) :
    exec (.rdcsr n) s = .next (s.afterFault 9#8) :=
  exec_of_firstFault (f := .illegalCommand) (by simp [checksOf, firstFault_cons, h])

end Sys2Proof.Machine

namespace Sys2Proof.Proofs

open Sys2Proof.Machine

/-- Settles O28: NOP and SRESET have no check, and RDCSR answers what its number names in R34 or faults where it names nothing. -/
theorem systemCommandsAnswer : Obligations.SystemCommandsAnswer := by
  intro s
  obtain ⟨hlast, hsecv, hshv, hzero⟩ := s.status_fields
  refine ⟨congrArg Host.Outcome.next (State.succeed_eq _ _), congrArg Host.Outcome.next (State.succeed_eq _ _),
    exec_rdcsr_of_csr rfl, ⟨s.status, hlast, hsecv, hshv, hzero, exec_rdcsr_of_csr rfl⟩, exec_rdcsr_of_csr rfl,
    exec_rdcsr_of_csr rfl, exec_rdcsr_of_csr rfl, exec_rdcsr_of_csr rfl, fun j sl hj => ?_, fun j hclosed => ?_,
    fun n hfixed hslot => exec_rdcsr_of_unassigned (s.csr_unassigned hfixed hslot)⟩
  · rw [exec_rdcsr_of_csr (s.csr_slot j), State.slen_of_getElem? hj]
    rfl
  · rw [exec_rdcsr_of_csr (s.csr_slot j), State.slen_of_closed hclosed]
    rfl

end Sys2Proof.Proofs

/-! # Proofs of the statements about exceptions (60_exceptions.md)

Next states come from the inversion lemmas of Laws/Ops and Laws/Exec. The wait is two facts: a command that is held after it ran
has changed nothing else (`exec_held_ne`), and the step of a core that holds a command is that command again (`step_hold`). -/

namespace Sys2Proof.Machine

/-! ## Next states -/

theorem exec_answers (i : Instr) (s : State) : ∃ t, exec i s = .next t := by
  obtain ⟨f, -, he⟩ | ⟨-, -, he⟩ | ⟨-, -, he⟩ := exec_cases i s
  · exact ⟨s.raiseFault f, he⟩
  · exact ⟨s.hold i, he⟩
  · exact ⟨_, he⟩

theorem step_answers (s : State) : ∃ t, step s = .next t := by
  obtain ⟨i, -, he⟩ | ⟨w, rest, i, -, -, -, he⟩ | ⟨w, rest, e, -, -, -, he⟩ | ⟨lost, rest, -, he⟩ | ⟨-, -, he⟩ := step_cases s
  · exact he ▸ exec_answers i _
  · exact he ▸ exec_answers i _
  · exact ⟨_, he⟩
  · exact ⟨_, he⟩
  · exact ⟨s, he⟩

/-- With no word presented and no command held, the core idles (60_exceptions.md R235). -/
theorem step_idle {s : State} (hh : s.host = []) (hd : s.held = none) : step s = .next s := by
  simp [step, nextWork, hh, hd]

/-! ## The wait for draws -/

/-- A held command is tried again, whatever word the host presents (70_reset_and_hazards.md R271). -/
theorem step_of_held {s : State} {i : Instr} (hd : s.held = some i) (hr : ∀ lost rest, s.host ≠ .hardReset lost :: rest) :
    step s = exec i { s with held := none } := by
  obtain ⟨j, hj, he⟩ | ⟨w, rest, j, -, hn, -⟩ | ⟨w, rest, e, -, hn, -⟩ | ⟨lost, rest, hh, -⟩ | ⟨-, hn, -⟩ := step_cases s
  · cases hd.symm.trans hj
    exact he
  · cases hd.symm.trans hn
  · cases hd.symm.trans hn
  · exact absurd hh (hr lost rest)
  · cases hd.symm.trans hn

/-- The step after a hold runs the command on the state before the hold. -/
theorem step_hold {s : State} (i : Instr) (hn : s.held = none) (hr : ∀ lost rest, s.host ≠ .hardReset lost :: rest) :
    step (s.hold i) = exec i s := by
  have hback : { s.hold i with held := none } = s := by rw [← hn]; rfl
  rw [step_of_held (s.hold_held i) hr, hback]

/-- A command that changed the held command waits, and has changed nothing else. -/
theorem exec_held_ne {i : Instr} {s t : State} (h : exec i s = .next t) (hne : t.held ≠ s.held) : t = s.hold i := by
  obtain ⟨f, -, rfl⟩ | ⟨-, -, rfl⟩ | ⟨-, -, rfl⟩ := exec_next_cases h
  · exact absurd rfl hne
  · rfl
  · obtain ⟨-, -, -, hheld, -⟩ := effect_frame s i
    exact absurd hheld hne

/-! ## The fault entry -/

/-- The code of a fault's response names the whole next state (60_exceptions.md R222). -/
theorem exec_fault_response {i : Instr} {s t : State} {q : Word} (h : exec i s = .next t) (hq : t.rsps = s.rsps ++ [q])
    (hcode : responseCode q ≠ 0x00#8) : t = s.afterFault (responseCode q) := by
  obtain ⟨f, hf, rfl⟩ | ⟨hok, -, -⟩ := exec_response_cases h hq
  · rw [hf, State.raiseFault_eq]
  · exact absurd hok hcode

end Sys2Proof.Machine

namespace Sys2Proof.Proofs

open Sys2Proof.Machine

/-- Settles O9, by the forms of a command's and of a step's next state. -/
theorem everyCommandAndStepAnswersANextState : Obligations.EveryCommandAndStepAnswersANextState :=
  ⟨exec_answers, step_answers⟩

/-- Settles O12: the one fault entry, and the response word is the one it appends. -/
theorem faultingCommandChangesOnlyTheFaultRecord : Obligations.FaultingCommandChangesOnlyTheFaultRecord := by
  intro i s t q h hq hcode
  have ht : t = s.afterFault (responseCode q) := exec_fault_response h hq hcode
  have hword : (responseCode q).setWidth 32 <<< 24 = q := by simpa [ht] using hq
  refine ⟨hword.symm, ?_⟩
  rw [ht, State.afterFault, hword]
  rfl

/-- Settles O26: the step of the held state is the command on the state before, with the bytes that have come since. -/
theorem heldCommandWaitsAndThenCompletes : Obligations.HeldCommandWaitsAndThenCompletes := by
  intro i s t hn h ht hr
  obtain rfl : t = s.hold i := exec_held_ne h (by simp [ht, hn])
  refine ⟨rfl, rfl, (step_hold i hn hr).trans h, fun bs => ?_⟩
  exact step_hold (s := { s with rnd := s.rnd ++ bs }) i hn hr

/-- Settles O8: a rule of the step. -/
theorem idleCoreRetainsItsState : Obligations.IdleCoreRetainsItsState := fun _ hh hd => step_idle hh hd

end Sys2Proof.Proofs

/-! # Proofs of the statements about runs and reset (70_reset_and_hazards.md)

A run with enough entropy never waits: a command whose checks pass in a legal state draws at most `15 * LMAX` bytes
(`drawsOf_le`), so each word of the run is answered in the step that takes it (`step_answered`). -/

namespace Sys2Proof.Machine

/-- The most a command draws: a SPLIT of threshold 16 of a full secret (41_polynomial_split.md R134). -/
theorem drawsOf_le {i : Instr} {s : State} (h : s.Inv) (hc : firstFault (checksOf s i) = none) :
    drawsOf s i ≤ s.lmax * 15 := by
  cases i with
  | ldcr k => exact Nat.mul_pos h.lmax_range.1 (by decide)
  | split k n =>
    obtain ⟨-, -, -, hkn, hn⟩ := split_checks hc
    exact Nat.mul_le_mul h.seclen_le (by omega)
  | _ => exact Nat.zero_le _

/-- A command gave its one response and was not held, and it drew no more than a longest split. -/
structure Answered (s t : State) : Prop where
  host : t.host = s.host
  held : t.held = s.held
  rsps : t.rsps.length = s.rsps.length + 1
  rnd : s.rnd.length - s.lmax * 15 ≤ t.rnd.length

theorem Answered.raiseFault (s : State) (f : FaultCode) : Answered s (s.raiseFault f) where
  host := rfl
  held := rfl
  rsps := by simp
  rnd := Nat.sub_le _ _

theorem Answered.effect {i : Instr} {s : State} (h : drawsOf s i ≤ s.lmax * 15) (v : Half) :
    Answered s ((effect s i).1.succeed v) := by
  obtain ⟨hrsps, hhost, -, hheld, hrnd, -⟩ := effect_frame s i
  refine ⟨hhost, hheld, by simp [hrsps], ?_⟩
  rw [State.succeed_rnd, hrnd, List.length_drop]
  omega

/-- With entropy for a longest split there, a command does not wait. -/
theorem exec_answered (i : Instr) {s : State} (h : s.Inv) (hr : s.lmax * 15 ≤ s.rnd.length) :
    ∃ t, exec i s = .next t ∧ Answered s t := by
  obtain ⟨f, -, he⟩ | ⟨hc, hd, -⟩ | ⟨hc, -, he⟩ := exec_cases i s
  · exact ⟨_, he, .raiseFault s f⟩
  · exact absurd ((drawsOf_le h hc).trans hr) (Nat.not_le.2 hd)
  · exact ⟨_, he, .effect (drawsOf_le h hc) _⟩

/-- So the step that takes a word, a command's or an illegal one, answers it. -/
theorem step_answered {s : State} {w : Word} {rest : List HostAct} (h : s.Inv) (hh : s.host = .command w :: rest)
    (hd : s.held = none) (hr : s.lmax * 15 ≤ s.rnd.length) : ∃ t, step s = .next t ∧ Answered { s with host := rest } t := by
  by_cases hw : isCommandWord w
  · obtain ⟨i, hi⟩ := isCommandWord_iff_decode.1 hw
    rw [step_command hh hd hi]
    exact exec_answered i (h.withHost rest) hr
  · exact ⟨_, step_illegal hh hd hw, .raiseFault _ _⟩

/-- From a legal state with no command held, words for which there is entropy enough are each answered in one step. -/
theorem run_words_complete (words : List Word) {s : State} (h : s.Inv) (hh : s.host = words.map .command)
    (hd : s.held = none) (hr : words.length * (s.lmax * 15) ≤ s.rnd.length) :
    ∃ t : State, core.run words.length s = .next t ∧ t.complete ∧ t.rsps.length = s.rsps.length + words.length := by
  induction words generalizing s with
  | nil => exact ⟨s, rfl, ⟨hh, hd⟩, rfl⟩
  | cons w words ih =>
    rw [List.length_cons, Nat.succ_mul] at hr
    obtain ⟨u, hstep, hu⟩ := step_answered h hh hd (by omega)
    have hru : words.length * (u.lmax * 15) ≤ u.rnd.length := by
      rw [step_lmax hstep]
      exact (Nat.le_sub_of_add_le hr).trans hu.rnd
    obtain ⟨t, hrun, hcomplete, hrsps⟩ := ih (step_inv h hstep) hu.host (hu.held.trans hd) hru
    refine ⟨t, (core_run_succ hstep _).trans hrun, hcomplete, ?_⟩
    rw [hrsps, hu.rsps, List.length_cons, Nat.add_assoc, Nat.add_comm 1]

end Sys2Proof.Machine

namespace Sys2Proof.Proofs

open Sys2Proof.Machine

/-- Settles O15: the start is a legal state with no response given, and the run of its words is complete. -/
theorem everyCommandOfARunIsAnswered : Obligations.EveryCommandOfARunIsAnswered := by
  intro lmax words rnd h1 h2 hr
  obtain ⟨t, hrun, hcomplete, hrsps⟩ := run_words_complete words (State.start_inv (words.map .command) rnd h1 h2) rfl rfl hr
  exact ⟨t, hrun, hcomplete, hrsps.trans (Nat.zero_add _)⟩

/-- Settles O17: a hard reset is the host's next act whether a command is held or not, and it clears the held command. -/
theorem hardResetAbandonsTheCommandInProgress : Obligations.HardResetAbandonsTheCommandInProgress :=
  fun _ _ _ hh => step_hardReset hh

end Sys2Proof.Proofs
